-- ==== Sys2Proof/Word.lean ====
section
/-! DEFINITION. The widths of the machine's values (00_scope.md R6, R8): every value is an unsigned
number of a fixed width. -/

namespace Sys2Proof

/-- A memory byte, a general register, a timer, an immediate kk (R21, R28, R60, R81). -/
abbrev Byte := BitVec 8

/-- An instruction word (30_encoding.md R80, R88). -/
abbrev Word := BitVec 16

/-- A register field x or y: V0 is 0x0, VF is 0xF (10_state.md R21, 30_encoding.md R81). -/
abbrev Reg := BitVec 4

/-- A key index 0x0 to 0xF (10_state.md R31). -/
abbrev KeyIndex := BitVec 4

/-- The address register I and the immediate address nnn (10_state.md R24, 30_encoding.md R81). -/
abbrev Addr := BitVec 12

/-- The program counter and a call-stack entry, 16 bits (10_state.md R25, R27). -/
abbrev Pc := BitVec 16

/-- VF, the flag register (10_state.md R23). -/
abbrev VF : Reg := 0xF#4

/-- V0, the offset register of Bnnn (40_control_flow.md R117). -/
abbrev V0 : Reg := 0x0#4

end Sys2Proof
end

