-- ==== Sys2Proof/Config.lean ====
section
/-! DEFINITION. What an implementation fixes (00_scope.md R6, R7): the sizes, the parameters the spec
makes an argument of the model, and the free values, which are constants without a body. -/

namespace Sys2Proof

/-- `P_VF_ORDER`: the order of the result write and the VF write (41_alu.md R130). -/
inductive VfOrder where
  /-- the source table's order -/
  | table
  /-- operands read first, VF written last -/
  | flagLast
deriving DecidableEq, Repr

/-- `P_KEYWAIT_MODE`: what ends the wait of Fx0A (44_input_timers.md R183, R186). -/
inductive KeyWaitMode where
  /-- a key-down event taken in a later slot -/
  | edge
  /-- any key held -/
  | level
deriving DecidableEq, Repr

/-- The 80 font bytes as 16 glyphs of 5 bytes; glyph g stands at address 5·g (20_memory.md R62). -/
abbrev Font := Vector (Vector Byte 5) 16

/-- The parameters of 00_scope.md R7 that are plain data. They stand in State (notes/assumptions 1), so
that a statement over every state is a statement over every setting; no step changes them. -/
structure Params where
  /-- `P_FONT` -/
  font : Font
  /-- `P_STACK_CAP`; `none` is unbounded -/
  stackCap : Option Nat
  /-- `P_VF_ORDER` -/
  vfOrder : VfOrder
  /-- `P_KEYWAIT_MODE` -/
  keyWait : KeyWaitMode
  /-- `P_PAUSED_TIMERS` -/
  pausedTimers : Bool
deriving DecidableEq, Repr

namespace Config

/-- Bytes of memory: addresses 0x000 to 0xFFF (R6). -/
abbrev memBytes : Nat := 4096

/-- Where a program is loaded, and the reset entry point (R6, 20_memory.md R62). -/
abbrev loadAddr : Nat := 0x200

/-- The largest program image, in bytes (R6). -/
abbrev maxProgram : Nat := 3584

/-- Bytes of the font, from address 0 (R6). -/
abbrev fontBytes : Nat := 80

/-- The default `P_FONT`, the conventional font as 20_memory.md R63 prints it.
PRESUMED (the spec's own general knowledge, G1; notes/assumptions 2). -/
def defaultFont : Font := #v[
  #v[0xF0, 0x90, 0x90, 0x90, 0xF0], #v[0x20, 0x60, 0x20, 0x20, 0x70],
  #v[0xF0, 0x10, 0xF0, 0x80, 0xF0], #v[0xF0, 0x10, 0xF0, 0x10, 0xF0],
  #v[0x90, 0x90, 0xF0, 0x10, 0x10], #v[0xF0, 0x80, 0xF0, 0x10, 0xF0],
  #v[0xF0, 0x80, 0xF0, 0x90, 0xF0], #v[0xF0, 0x10, 0x20, 0x40, 0x40],
  #v[0xF0, 0x90, 0xF0, 0x90, 0xF0], #v[0xF0, 0x90, 0xF0, 0x10, 0xF0],
  #v[0xF0, 0x90, 0xF0, 0x90, 0x90], #v[0xE0, 0x90, 0xE0, 0x90, 0xE0],
  #v[0xF0, 0x80, 0x80, 0x80, 0xF0], #v[0xE0, 0x90, 0x90, 0x90, 0xE0],
  #v[0xF0, 0x80, 0xF0, 0x80, 0xF0], #v[0xF0, 0x80, 0xF0, 0x80, 0x80]]

/-- The defaults of R7. -/
def defaultParams : Params where
  font := defaultFont
  stackCap := none
  vfOrder := .table
  keyWait := .edge
  pausedTimers := true

/-- `P_IPS`, the instruction rate at construction, which the spec leaves open (R7, R34).
DESIGN CHOICE (notes/assumptions 3): free, no body. -/
opaque pIps : Nat

/-- `RAND`: the n-th byte the environment draws for Cxkk (41_alu.md R143).
DESIGN CHOICE (notes/assumptions 4): free, no body. -/
opaque randomByte : Nat → Byte

/-- The pc after an increment whose 16-bit sum does not exist (the argument is the sum, above 0xFFFF):
10_state.md R25 gives pc 16 bits and never wraps it, so the spec states no value.
DESIGN CHOICE (notes/assumptions 5): free, no body. -/
opaque pcBeyond : Nat → Pc

end Config

end Sys2Proof
end

