-- ==== Sys2Proof/Machine/State.lean ====
section
/-! DEFINITION. The state of the machine as plain data: everything 10_state.md gives the block (R21 to
R45), the parameters of 00_scope.md R7, and the model's own record of the host's pending events, of the
running tick and of the emitted outputs (60_exceptions.md R222, R240). INVENTORY.md lists every field. -/

namespace Sys2Proof.Machine

/-- How `step` can stop with a fault: it cannot. Every fatal condition the spec names (60_exceptions.md
R211) has a stated effect (R212) and is a NEXT state in which FAULT is latched and RUN is Stopped
(notes/assumptions 7). No constructor, so nobody raises it (safe). -/
inductive Fault where
deriving DecidableEq, Repr

/-- How an instruction can be refused. -/
inductive Refusal where
  /-- Raised by an arm of `exec` for an instruction that has no meaning yet; no arm does (safe). -/
  | notModelled (mnemonic : String)
deriving DecidableEq, Repr

/-- Memory: (address, byte) cells, addresses strictly rising, none equal to what an unlisted address reads
as (`Mem.blank`, Machine/Ops.lean); `Memory.wf` says so (20_memory.md R60, R63). -/
abbrev Memory := List Host.Cell

/-- The framebuffer: 32 rows of 64 one-bit pixels; bit c of row r is `FB[r][c]` (10_state.md R30). -/
abbrev Frame := Vector (BitVec 64) 32

/-- A saved program or program image (IMG), a snapshot's bytes (R240). -/
abbrev Bytes := List Byte

/-- RUN (R38). -/
inductive RunState where
  | stopped
  | running
  | paused
deriving DecidableEq, Repr

/-- Whether a key event is a press or a release (R37). -/
inductive KeyKind where
  | down
  | up
deriving DecidableEq, Repr

/-- A key event (k, down) or (k, up) (R37). -/
structure KeyEvent where
  key : KeyIndex
  kind : KeyKind
deriving DecidableEq, Repr

/-- The fault causes (60_exceptions.md R211). -/
inductive FaultCause where
  /-- every fetch: pc above 0xFFE -/
  | fetchOutOfRange
  /-- Dxyn, Fx33, Fx55, Fx65: last byte address above 0xFFF -/
  | dataOutOfRange
  /-- Ex9E, ExA1: Vx above 0xF -/
  | keyIndexOutOfRange
  /-- 2nnn: the capped stack is full -/
  | stackOverflow
deriving DecidableEq, Repr

/-- The info a fault records beside its pc (R211): the instruction word where one was fetched, and the
addresses, the key value or the depth. -/
inductive FaultInfo where
  /-- FETCH_OUT_OF_RANGE records the pc alone -/
  | fetch
  /-- DATA_OUT_OF_RANGE: word, first and last address -/
  | data (w : Word) (first last : Nat)
  /-- KEY_INDEX_OUT_OF_RANGE: word and Vx -/
  | key (w : Word) (value : Byte)
  /-- STACK_OVERFLOW: word and depth -/
  | stack (w : Word) (depth : Nat)
deriving DecidableEq, Repr

/-- A latched fault: cause, pc, info (R40, R212). -/
structure FaultRecord where
  cause : FaultCause
  pc : Pc
  info : FaultInfo
deriving DecidableEq, Repr

/-- The result of a host request (R214, R240). -/
inductive RequestResult where
  | ok
  | sizeError
  | formatError
  | usageError
deriving DecidableEq, Repr

/-- The events that enter the block (R240); RAND is `Config.randomByte`. -/
inductive Input where
  | tick
  | key (e : KeyEvent)
  | start
  | stop
  | togglePause
  | step
  | setRate (ips : Nat)
  | loadProgram (image : Bytes)
  | reset
  | save
  | loadSnapshot (blob : Bytes)
deriving DecidableEq, Repr

/-- The events that leave the block (R240); `blob` is what SAVE returns. -/
inductive OutEvent where
  | frame (fb : Frame)
  | beep
  | diag (pc : Pc) (w : Word)
  | error (f : FaultRecord)
  | blob (b : Bytes)
  | result (r : RequestResult)
deriving DecidableEq, Repr

/-- The machine's state. -/
structure State where
  /-- V0 to VF (R21) -/
  v : Vector Byte 16
  /-- the address register (R24) -/
  I : Addr
  /-- the program counter (R25) -/
  pc : Pc
  /-- the call stack, most recent entry first (R27) -/
  stack : List Pc
  /-- the delay timer DT (R28) -/
  dt : Byte
  /-- the sound timer ST (R28) -/
  st : Byte
  /-- memory (R29) -/
  mem : Memory
  /-- the framebuffer FB, row then column (R30) -/
  fb : Frame
  /-- the input matrix K (R31) -/
  keys : Vector Bool 16
  /-- the run state RUN (R38) -/
  run : RunState
  /-- the instruction rate IPS (R34) -/
  ips : Nat
  /-- DIRTY (R33) -/
  dirty : Bool
  /-- the key wait AWAIT (R36) -/
  awaitKey : Option Reg
  /-- the key-event queue KQ, oldest first (R37) -/
  kq : List KeyEvent
  /-- the fault latch FAULT (R40) -/
  fault : Option FaultRecord
  /-- the program image IMG (R41) -/
  img : Bytes
  /-- the parameters of the model; no step changes them (00_scope.md R7) -/
  params : Params
  /-- the model's own: the host's and the timebase's events to come, oldest first -/
  inputs : List Input
  /-- the model's own: slots the tick in progress still runs; 0 between ticks -/
  slotsLeft : Nat
  /-- the model's own: the events emitted so far, oldest first -/
  out : List OutEvent
  /-- the model's own: random bytes drawn so far, the argument of the next free draw -/
  draws : Nat
deriving DecidableEq, Repr

/-- A machine constructed with the two arguments the spec gives construction, `P_IPS` and the parameters
(70_reset_and_hazards.md R260): the state of a reset with an empty image, RUN Stopped, KQ empty
(10_state.md R45). -/
def State.constructed (ips : Nat) (params : Params) : State where
  v := Vector.replicate 16 0
  I := 0
  pc := 0x200
  stack := []
  dt := 0
  st := 0
  mem := []
  fb := Vector.replicate 32 0
  keys := Vector.replicate 16 false
  run := .stopped
  ips := ips
  dirty := true
  awaitKey := none
  kq := []
  fault := none
  img := []
  params := params
  inputs := []
  slotsLeft := 0
  out := []
  draws := 0

/-- The machine right after construction and reset, with the parameters' defaults and the open `P_IPS`. -/
def State.reset : State := State.constructed Config.pIps Config.defaultParams

/-- What a step or a meaning answers. -/
abbrev Answer := Host.Outcome State Fault Refusal

end Sys2Proof.Machine
end

