-- ==== Sys2Proof/Machine/Ops.lean ====
section
/-! DEFINITION. The named operations over memory, registers, pc, stack and outputs that every meaning is
written in, and taking a fault, the one exception mechanism the block has (60_exceptions.md R212). -/

namespace Sys2Proof.Machine

/-! ### Memory (20_memory.md) -/

/-- What an unlisted address reads as: the memory `InitMem` gives with an empty image (R63), the font at
0x000 to 0x04F and 0 elsewhere. Glyph g stands at 5·g (R62). -/
def Mem.blank (font : Font) (a : Nat) : Byte :=
  if h : a < Config.fontBytes then
    (font[a / 5]'(by simp only [Config.fontBytes] at h; omega))[a % 5]'(Nat.mod_lt a (by decide))
  else 0

/-- The canonical form: addresses strictly rising and below 4096, no cell equal to the unlisted byte. -/
abbrev Memory.wf (font : Font) (m : Memory) : Prop :=
  m.Pairwise (fun c d => c.1 < d.1) ∧
    ∀ c ∈ m, c.1 < Config.memBytes ∧ c.2 ≠ Mem.blank font c.1

/-- `MemRead(a, 1)` (R9, R67): the listed byte, or the unlisted one. -/
def Mem.read (font : Font) : Memory → Nat → Byte
  | [], a => Mem.blank font a
  | c :: rest, a => if c.1 = a then c.2 else Mem.read font rest a

/-- The memory without a cell for `a`. -/
def Mem.erase (m : Memory) (a : Nat) : Memory := m.filter fun c => c.1 != a

/-- The memory with a cell put at its place in the rising order. -/
def Mem.insert (a : Nat) (b : Byte) : Memory → Memory
  | [] => [(a, b)]
  | c :: rest => if a < c.1 then (a, b) :: c :: rest else c :: Mem.insert a b rest

/-- `MemWrite(a, 1, b)` (R9, R67), keeping the canonical form. Outside 0x000 to 0xFFF nothing is stored:
no meaning gets there, since the whole range is checked first (R64). -/
def Mem.write (font : Font) (m : Memory) (a : Nat) (b : Byte) : Memory :=
  if Config.memBytes ≤ a then m
  else if b = Mem.blank font a then Mem.erase m a
  else Mem.insert a b (Mem.erase m a)

/-- Bytes at a, a+1, …, written one at a time in increasing address order (R67). -/
def Mem.writeList (font : Font) (m : Memory) (a : Nat) : List Byte → Memory
  | [] => m
  | b :: bs => Mem.writeList font (Mem.write font m a b) (a + 1) bs

/-- The memory that holds `bytes` from address `a` on and unlisted bytes elsewhere. -/
def Mem.ofBytes (font : Font) (a : Nat) : Bytes → Memory
  | [] => []
  | b :: bs =>
    if b = Mem.blank font a then Mem.ofBytes font (a + 1) bs
    else (a, b) :: Mem.ofBytes font (a + 1) bs

/-- `InitMem(img)`: font, zeros, and the image from 0x200 on (R63). -/
def initMem (font : Font) (img : Bytes) : Memory := Mem.ofBytes font Config.loadAddr img

namespace State

/-- The byte at an address. -/
def load (s : State) (a : Nat) : Byte := Mem.read s.params.font s.mem a

/-- One byte stored. -/
def store (s : State) (a : Nat) (b : Byte) : State :=
  { s with mem := Mem.write s.params.font s.mem a b }

/-- Bytes stored from an address on, in increasing order (R67). -/
def storeList (s : State) (a : Nat) (bs : List Byte) : State :=
  { s with mem := Mem.writeList s.params.font s.mem a bs }

/-- The n bytes from an address on, in increasing order (R67). -/
def loadList (s : State) (a n : Nat) : List Byte := (List.range n).map fun j => s.load (a + j)

/-! ### Registers (10_state.md R21) -/

/-- `V[x]`. -/
def reg (s : State) (x : Reg) : Byte := s.v[x.toNat]'x.isLt

/-- `V[x] <- b`. -/
def setReg (s : State) (x : Reg) (b : Byte) : State := { s with v := s.v.set x.toNat b x.isLt }

/-! ### The program counter (10_state.md R25, R26) -/

end State

/-- The number of a fault cause (60_exceptions.md R211). -/
def FaultCause.code (c : FaultCause) : Nat :=
  match c with
  | .fetchOutOfRange => 1
  | .dataOutOfRange => 2
  | .keyIndexOutOfRange => 3
  | .stackOverflow => 4

/-- pc + k on the 16-bit value, without wrap-around (R26). A sum above 0xFFFF, which no fetched
instruction reaches, has no stated value: free (notes/assumptions 5). -/
def pcPlus (pc : Pc) (k : Nat) : Pc :=
  if pc.toNat + k < 0x10000 then BitVec.ofNat 16 (pc.toNat + k) else Config.pcBeyond (pc.toNat + k)

namespace State

/-- `pc <- pc + k`. -/
def advance (s : State) (k : Nat) : State := { s with pc := pcPlus s.pc k }

/-- `pc <- pc + 2`. -/
def nextInstr (s : State) : State := s.advance 2

/-- Skip the next word when the condition holds: pc + 4, else pc + 2 (40_control_flow.md R118). -/
def skipIf (s : State) (c : Bool) : State := s.advance (if c then 4 else 2)

/-- `pc <- target`. -/
def jump (s : State) (target : Pc) : State := { s with pc := target }

/-! ### The call stack (10_state.md R27) -/

/-- `push(p)`. -/
def push (s : State) (p : Pc) : State := { s with stack := p :: s.stack }

/-- The stack holds as many entries as `P_STACK_CAP` allows (40_control_flow.md R112). -/
def stackFull (s : State) : Bool := s.params.stackCap == some s.stack.length

/-! ### Outputs (60_exceptions.md R240) -/

/-- `emit e`. -/
def emit (s : State) (e : OutEvent) : State := { s with out := s.out ++ [e] }

/-! ### Taking a fault (60_exceptions.md R212) -/

/-- The record a fault latches: cause, the pc of the faulting fetch or instruction, info. -/
def faultRecord (s : State) (cause : FaultCause) (info : FaultInfo) : FaultRecord :=
  ⟨cause, s.pc, info⟩

/-- `raise Fault(cause, info)`: FAULT latched, RUN Stopped, Error emitted, the rest of the tick abandoned;
nothing else is written, and pc still addresses the faulting instruction. There is no handler and no
return from a fault (R217); a RESET or a loaded snapshot ends it. -/
def raiseFault (s : State) (cause : FaultCause) (info : FaultInfo) : State :=
  { s with
    fault := some (s.faultRecord cause info)
    run := .stopped
    slotsLeft := 0
    out := s.out ++ [.error (s.faultRecord cause info)] }

/-- `CheckData(first, last)` before an instruction's effect (20_memory.md R64): `w` is the instruction's
word, recorded with the addresses (60_exceptions.md R211). -/
def checkData (s : State) (w : Word) (first last : Nat) (effect : State) : Answer :=
  if 0xFFF < last then .next (s.raiseFault .dataOutOfRange (.data w first last)) else .next effect

end State

end Sys2Proof.Machine
end

