-- ==== Sys2Proof/Machine/Flags.lean ====
section
/-! DEFINITION. The flag computations of the byte ALU (41_alu.md R144) and the two orders in which a
result and VF are written (R130). VF is the only flag (10_state.md R23). -/

namespace Sys2Proof.Machine

/-- `bool(c)`: 1 or 0 (00_scope.md R9). -/
def flagByte (c : Bool) : Byte := if c then 1 else 0

/-- Carry of 8xy4: the sum exceeds 255 (R137, R144). -/
def carryOut (a b : Byte) : Bool := decide (255 < a.toNat + b.toNat)

/-- Flag of 8xy5 (and, with the operands exchanged, 8xy7): strictly greater (R138, R140, R144). -/
def noBorrow (a b : Byte) : Bool := decide (b.toNat < a.toNat)

/-- Bit 0, shifted out by 8xy6 (R139). -/
def shiftedOutRight (a : Byte) : Bool := a.getLsbD 0

/-- Bit 7, shifted out by 8xyE (R141). -/
def shiftedOutLeft (a : Byte) : Bool := a.getLsbD 7

namespace State

/-- Operands read before any write, then the result, then VF: 8xy4 under both orders (R137), and every
flag instruction under `flag_last` (R130). -/
def resultThenFlag (s : State) (x y : Reg) (result : Byte → Byte → Byte) (flag : Byte → Byte → Bool) :
    State :=
  (s.setReg x (result (s.reg x) (s.reg y))).setReg VF (flagByte (flag (s.reg x) (s.reg y)))

/-- VF first, then the result computed from the registers as VF's write left them: the table's order of
8xy5, 8xy6, 8xy7 and 8xyE (R130). -/
def flagThenResult (s : State) (x y : Reg) (result : Byte → Byte → Byte) (flag : Byte → Byte → Bool) :
    State :=
  let f := s.setReg VF (flagByte (flag (s.reg x) (s.reg y)))
  f.setReg x (result (f.reg x) (f.reg y))

/-- Result and flag in the order `P_VF_ORDER` selects (R130). -/
def resultAndFlag (s : State) (x y : Reg) (result : Byte → Byte → Byte) (flag : Byte → Byte → Bool) :
    State :=
  match s.params.vfOrder with
  | .table => s.flagThenResult x y result flag
  | .flagLast => s.resultThenFlag x y result flag

end State

end Sys2Proof.Machine
end

