-- ==== Sys2Proof/Machine/Operands.lean ====
section
/-! DEFINITION. The operand forms: register direct and immediate come as fields of the instruction
(30_encoding.md R86); what is left is memory through I (42_index_memory.md R156), a key index in Vx, a
glyph in Vx, a sprite's coordinates, and the digits and register runs that are stored. -/

namespace Sys2Proof.Machine

namespace State

/-- The address of the j-th data byte, I + j, without wrap-around (R156). -/
def dataAddr (s : State) (j : Nat) : Nat := s.I.toNat + j

/-- The key index in Vx, absent when Vx is above 0xF (44_input_timers.md R180). -/
def keyOperand (s : State) (x : Reg) : Option KeyIndex :=
  if (s.reg x).toNat ≤ 0xF then some ((s.reg x).setWidth 4) else none

/-- `K[k]` (10_state.md R31). -/
def keyDown (s : State) (k : KeyIndex) : Bool := s.keys[k.toNat]'k.isLt

/-- The least held key, if any (44_input_timers.md R183). -/
def leastKey (s : State) : Option KeyIndex :=
  ((List.range 16).map (BitVec.ofNat 4)).find? s.keyDown

/-- The glyph address (Vx & 0xF) * 5 (42_index_memory.md R152). -/
def glyphAddr (s : State) (x : Reg) : Addr := BitVec.ofNat 12 ((s.reg x &&& 0xF).toNat * 5)

/-- The sprite's column Vx mod 64 (43_display.md R171). -/
def spriteCol (s : State) (x : Reg) : Nat := (s.reg x).toNat % 64

/-- The sprite's row Vy mod 32 (43_display.md R171). -/
def spriteRow (s : State) (y : Reg) : Nat := (s.reg y).toNat % 32

/-- The values of V0 to Vx, in order (42_index_memory.md R154). -/
def regsUpTo (s : State) (x : Reg) : List Byte :=
  (List.range (x.toNat + 1)).map fun j => s.reg (BitVec.ofNat 4 j)

/-- V0 to Vx replaced by the bytes from I on, in order (42_index_memory.md R155). -/
def loadRegsUpTo (s : State) (x : Reg) : State :=
  { s with v := Vector.ofFn fun j : Fin 16 =>
      if j.val ≤ x.toNat then s.load (s.dataAddr j.val) else s.v[j] }

end State

/-- Hundreds, tens, units (42_index_memory.md R153). -/
def bcdDigits (b : Byte) : List Byte :=
  [BitVec.ofNat 8 (b.toNat / 100), BitVec.ofNat 8 (b.toNat / 10 % 10), BitVec.ofNat 8 (b.toNat % 10)]

end Sys2Proof.Machine
end

