-- ==== Sys2Proof/Machine/Alu.lean ====
section
/-! DEFINITION. Register loads, the byte ALU and the random byte (41_alu.md R130 to R144). -/

namespace Sys2Proof.Machine

/-- 6xkk (R131). -/
def execLdImm (x : Reg) (kk : Byte) (s : State) : Answer := .next (s.setReg x kk).nextInstr

/-- 7xkk (R132): wraps mod 256; VF is no carry here. -/
def execAddImm (x : Reg) (kk : Byte) (s : State) : Answer := .next (s.setReg x (s.reg x + kk)).nextInstr

/-- 8xy0 (R133). -/
def execLdReg (x y : Reg) (s : State) : Answer := .next (s.setReg x (s.reg y)).nextInstr

/-- 8xy1 (R134). -/
def execOrReg (x y : Reg) (s : State) : Answer := .next (s.setReg x (s.reg x ||| s.reg y)).nextInstr

/-- 8xy2 (R135). -/
def execAndReg (x y : Reg) (s : State) : Answer := .next (s.setReg x (s.reg x &&& s.reg y)).nextInstr

/-- 8xy3 (R136). -/
def execXorReg (x y : Reg) (s : State) : Answer := .next (s.setReg x (s.reg x ^^^ s.reg y)).nextInstr

/-- 8xy4 (R137): the result, then the carry, under both orders. -/
def execAddReg (x y : Reg) (s : State) : Answer :=
  .next (s.resultThenFlag x y (fun a b => a + b) carryOut).nextInstr

/-- 8xy5 (R138). -/
def execSubReg (x y : Reg) (s : State) : Answer :=
  .next (s.resultAndFlag x y (fun a b => a - b) noBorrow).nextInstr

/-- 8xy6 (R139): Vx alone; the y field is ignored. -/
def execShr (x _y : Reg) (s : State) : Answer :=
  .next (s.resultAndFlag x x (fun a _ => a >>> 1) (fun a _ => shiftedOutRight a)).nextInstr

/-- 8xy7 (R140). -/
def execSubn (x y : Reg) (s : State) : Answer :=
  .next (s.resultAndFlag x y (fun a b => b - a) (fun a b => noBorrow b a)).nextInstr

/-- 8xyE (R141): Vx alone; the y field is ignored. -/
def execShl (x _y : Reg) (s : State) : Answer :=
  .next (s.resultAndFlag x x (fun a _ => a <<< 1) (fun a _ => shiftedOutLeft a)).nextInstr

/-- `draw RAND` (R143): the next free byte, and the counter past it. -/
def drawByte (s : State) : Byte × State := (Config.randomByte s.draws, { s with draws := s.draws + 1 })

/-- Cxkk (R142). -/
def execRnd (x : Reg) (kk : Byte) (s : State) : Answer :=
  .next ((drawByte s).2.setReg x ((drawByte s).1 &&& kk)).nextInstr

end Sys2Proof.Machine
end

