-- ==== Sys2Proof/WellFormed.lean ====
section
/-! DEFINITION. The opcode table as masks and matches (30_encoding.md R82), and the one check an
instruction term can fail: the default row holds only words that no row 1 to 34 matches (R87). Every
other field is legal at every value of its type (R86). -/

namespace Sys2Proof

/-- A row of the opcode table: a word w selects it when w AND mask equals match (R82). -/
structure OpRow where
  mask : Word
  pattern : Word
deriving DecidableEq, Repr

/-- The row selects the word: masked and compared (R82). -/
def OpRow.selects (r : OpRow) (w : Word) : Bool := w &&& r.mask == r.pattern

/-- The row of R82 that an instruction belongs to; the default row has mask 0. -/
def Instr.row : Instr → OpRow
  | .cls => ⟨0xFFFF, 0x00E0⟩
  | .ret => ⟨0xFFFF, 0x00EE⟩
  | .jp _ => ⟨0xF000, 0x1000⟩
  | .call _ => ⟨0xF000, 0x2000⟩
  | .seImm _ _ => ⟨0xF000, 0x3000⟩
  | .sneImm _ _ => ⟨0xF000, 0x4000⟩
  | .seReg _ _ => ⟨0xF00F, 0x5000⟩
  | .ldImm _ _ => ⟨0xF000, 0x6000⟩
  | .addImm _ _ => ⟨0xF000, 0x7000⟩
  | .ldReg _ _ => ⟨0xF00F, 0x8000⟩
  | .orReg _ _ => ⟨0xF00F, 0x8001⟩
  | .andReg _ _ => ⟨0xF00F, 0x8002⟩
  | .xorReg _ _ => ⟨0xF00F, 0x8003⟩
  | .addReg _ _ => ⟨0xF00F, 0x8004⟩
  | .subReg _ _ => ⟨0xF00F, 0x8005⟩
  | .shr _ _ => ⟨0xF00F, 0x8006⟩
  | .subn _ _ => ⟨0xF00F, 0x8007⟩
  | .shl _ _ => ⟨0xF00F, 0x800E⟩
  | .sneReg _ _ => ⟨0xF00F, 0x9000⟩
  | .ldI _ => ⟨0xF000, 0xA000⟩
  | .jpV0 _ => ⟨0xF000, 0xB000⟩
  | .rnd _ _ => ⟨0xF000, 0xC000⟩
  | .drw _ _ _ => ⟨0xF000, 0xD000⟩
  | .skp _ => ⟨0xF0FF, 0xE09E⟩
  | .sknp _ => ⟨0xF0FF, 0xE0A1⟩
  | .ldVxDt _ => ⟨0xF0FF, 0xF007⟩
  | .ldVxK _ => ⟨0xF0FF, 0xF00A⟩
  | .ldDtVx _ => ⟨0xF0FF, 0xF015⟩
  | .ldStVx _ => ⟨0xF0FF, 0xF018⟩
  | .addI _ => ⟨0xF0FF, 0xF01E⟩
  | .ldF _ => ⟨0xF0FF, 0xF029⟩
  | .ldB _ => ⟨0xF0FF, 0xF033⟩
  | .storeRegs _ => ⟨0xF0FF, 0xF055⟩
  | .loadRegs _ => ⟨0xF0FF, 0xF065⟩
  | .dw _ => ⟨0x0000, 0x0000⟩

/-- Rows 1 to 34 of R82, in the table's order. -/
def opRows : List OpRow :=
  [⟨0xFFFF, 0x00E0⟩, ⟨0xFFFF, 0x00EE⟩, ⟨0xF000, 0x1000⟩, ⟨0xF000, 0x2000⟩,
   ⟨0xF000, 0x3000⟩, ⟨0xF000, 0x4000⟩, ⟨0xF00F, 0x5000⟩, ⟨0xF000, 0x6000⟩, ⟨0xF000, 0x7000⟩] ++
  [⟨0xF00F, 0x8000⟩, ⟨0xF00F, 0x8001⟩, ⟨0xF00F, 0x8002⟩, ⟨0xF00F, 0x8003⟩, ⟨0xF00F, 0x8004⟩,
   ⟨0xF00F, 0x8005⟩, ⟨0xF00F, 0x8006⟩, ⟨0xF00F, 0x8007⟩, ⟨0xF00F, 0x800E⟩, ⟨0xF00F, 0x9000⟩] ++
  [⟨0xF000, 0xA000⟩, ⟨0xF000, 0xB000⟩, ⟨0xF000, 0xC000⟩, ⟨0xF000, 0xD000⟩,
   ⟨0xF0FF, 0xE09E⟩, ⟨0xF0FF, 0xE0A1⟩] ++
  [⟨0xF0FF, 0xF007⟩, ⟨0xF0FF, 0xF00A⟩, ⟨0xF0FF, 0xF015⟩, ⟨0xF0FF, 0xF018⟩, ⟨0xF0FF, 0xF01E⟩,
   ⟨0xF0FF, 0xF029⟩, ⟨0xF0FF, 0xF033⟩, ⟨0xF0FF, 0xF055⟩, ⟨0xF0FF, 0xF065⟩]

/-- No row 1 to 34 selects the word: it is an unrecognized opcode (R87). -/
def Word.unrecognized (w : Word) : Bool := opRows.all fun r => !r.selects w

/-- An instruction term is well formed: a data word is really unrecognized; nothing else can be wrong. -/
def Instr.wf : Instr → Bool
  | .cls => true
  | .ret => true
  | .jp _ => true
  | .call _ => true
  | .seImm _ _ => true
  | .sneImm _ _ => true
  | .seReg _ _ => true
  | .ldImm _ _ => true
  | .addImm _ _ => true
  | .ldReg _ _ => true
  | .orReg _ _ => true
  | .andReg _ _ => true
  | .xorReg _ _ => true
  | .addReg _ _ => true
  | .subReg _ _ => true
  | .shr _ _ => true
  | .subn _ _ => true
  | .shl _ _ => true
  | .sneReg _ _ => true
  | .ldI _ => true
  | .jpV0 _ => true
  | .rnd _ _ => true
  | .drw _ _ _ => true
  | .skp _ => true
  | .sknp _ => true
  | .ldVxDt _ => true
  | .ldVxK _ => true
  | .ldDtVx _ => true
  | .ldStVx _ => true
  | .addI _ => true
  | .ldF _ => true
  | .ldB _ => true
  | .storeRegs _ => true
  | .loadRegs _ => true
  | .dw w => Word.unrecognized w

end Sys2Proof
end

