-- ==== Sys2Proof/Decode.lean ====
section
/-! DEFINITION. Decoding, total on any bytes (30_encoding.md R80 to R88), the encoder written from the
same formats (R85), and the assembler syntax (R89). A word always has a meaning, the default row taking what no other row matches; the
only rejection is a byte sequence too short to hold a word. -/

namespace Sys2Proof

/-! ### The fields of R81 -/

/-- The major opcode w[15:12]. -/
def opOf (w : Word) : BitVec 4 := w.extractLsb' 12 4
/-- x, w[11:8]. -/
def xOf (w : Word) : Reg := w.extractLsb' 8 4
/-- y, w[7:4]. -/
def yOf (w : Word) : Reg := w.extractLsb' 4 4
/-- n, w[3:0]. -/
def nOf (w : Word) : BitVec 4 := w.extractLsb' 0 4
/-- kk, w[7:0]. -/
def kkOf (w : Word) : Byte := w.extractLsb' 0 8
/-- nnn, w[11:0]. -/
def nnnOf (w : Word) : Addr := w.extractLsb' 0 12

/-- The word of two bytes, the first in bits 15:8 (R65, R80). -/
def wordOfBytes (hi lo : Byte) : Word := hi ++ lo
/-- The byte at the lower address, bits 15:8. -/
def hiByte (w : Word) : Byte := w.extractLsb' 8 8
/-- The byte at the higher address, bits 7:0. -/
def loByte (w : Word) : Byte := w.extractLsb' 0 8

/-! ### The decoder -/

/-- Group 8: the sub-operation is n (R82 rows 10 to 18). -/
def decodeGroup8 (w : Word) : Instr :=
  match (nOf w).toNat with
  | 0x0 => .ldReg (xOf w) (yOf w)
  | 0x1 => .orReg (xOf w) (yOf w)
  | 0x2 => .andReg (xOf w) (yOf w)
  | 0x3 => .xorReg (xOf w) (yOf w)
  | 0x4 => .addReg (xOf w) (yOf w)
  | 0x5 => .subReg (xOf w) (yOf w)
  | 0x6 => .shr (xOf w) (yOf w)
  | 0x7 => .subn (xOf w) (yOf w)
  | 0xE => .shl (xOf w) (yOf w)
  | _ => .dw w

/-- Group E: the sub-operation is kk (R82 rows 24, 25). -/
def decodeGroupE (w : Word) : Instr :=
  if kkOf w = 0x9E#8 then .skp (xOf w)
  else if kkOf w = 0xA1#8 then .sknp (xOf w)
  else .dw w

/-- Group F: the sub-operation is kk (R82 rows 26 to 34). -/
def decodeGroupF (w : Word) : Instr :=
  if kkOf w = 0x07#8 then .ldVxDt (xOf w)
  else if kkOf w = 0x0A#8 then .ldVxK (xOf w)
  else if kkOf w = 0x15#8 then .ldDtVx (xOf w)
  else if kkOf w = 0x18#8 then .ldStVx (xOf w)
  else if kkOf w = 0x1E#8 then .addI (xOf w)
  else if kkOf w = 0x29#8 then .ldF (xOf w)
  else if kkOf w = 0x33#8 then .ldB (xOf w)
  else if kkOf w = 0x55#8 then .storeRegs (xOf w)
  else if kkOf w = 0x65#8 then .loadRegs (xOf w)
  else .dw w

/-- The instruction of a word: the row of R82 it selects, with its fields; the default row otherwise. -/
def decodeWord (w : Word) : Instr :=
  match (opOf w).toNat with
  | 0x0 => if w = 0x00E0#16 then .cls else if w = 0x00EE#16 then .ret else .dw w
  | 0x1 => .jp (nnnOf w)
  | 0x2 => .call (nnnOf w)
  | 0x3 => .seImm (xOf w) (kkOf w)
  | 0x4 => .sneImm (xOf w) (kkOf w)
  | 0x5 => if nOf w = 0x0#4 then .seReg (xOf w) (yOf w) else .dw w
  | 0x6 => .ldImm (xOf w) (kkOf w)
  | 0x7 => .addImm (xOf w) (kkOf w)
  | 0x8 => decodeGroup8 w
  | 0x9 => if nOf w = 0x0#4 then .sneReg (xOf w) (yOf w) else .dw w
  | 0xA => .ldI (nnnOf w)
  | 0xB => .jpV0 (nnnOf w)
  | 0xC => .rnd (xOf w) (kkOf w)
  | 0xD => .drw (xOf w) (yOf w) (nOf w)
  | 0xE => decodeGroupE w
  | _ => decodeGroupF w

/-- Why bytes hold no instruction. -/
inductive DecodeError where
  /-- fewer than the two bytes of a word (R88) -/
  | truncated
deriving DecidableEq, Repr

/-- Decode the first instruction of a byte sequence, high byte first (R65), and give the bytes after it. -/
def decode : List Byte → Except DecodeError (Instr × List Byte)
  | hi :: lo :: rest => .ok (decodeWord (wordOfBytes hi lo), rest)
  | _ => .error .truncated

/-! ### The encoder, from the formats of R85 -/

/-- Format NNN: op nnn. -/
def formatNNN (op : BitVec 4) (nnn : Addr) : Word := op ++ nnn
/-- Formats XKK and XFN: op x and a byte. -/
def formatXKK (op : BitVec 4) (x : Reg) (kk : Byte) : Word := op ++ (x ++ kk)
/-- Formats XY0 and XYN: op x y and a nibble. -/
def formatXYN (op : BitVec 4) (x y n : BitVec 4) : Word := op ++ (x ++ (y ++ n))

/-- The word of an instruction. -/
def encode : Instr → Word
  | .cls => 0x00E0#16
  | .ret => 0x00EE#16
  | .jp nnn => formatNNN 0x1 nnn
  | .call nnn => formatNNN 0x2 nnn
  | .seImm x kk => formatXKK 0x3 x kk
  | .sneImm x kk => formatXKK 0x4 x kk
  | .seReg x y => formatXYN 0x5 x y 0x0
  | .ldImm x kk => formatXKK 0x6 x kk
  | .addImm x kk => formatXKK 0x7 x kk
  | .ldReg x y => formatXYN 0x8 x y 0x0
  | .orReg x y => formatXYN 0x8 x y 0x1
  | .andReg x y => formatXYN 0x8 x y 0x2
  | .xorReg x y => formatXYN 0x8 x y 0x3
  | .addReg x y => formatXYN 0x8 x y 0x4
  | .subReg x y => formatXYN 0x8 x y 0x5
  | .shr x y => formatXYN 0x8 x y 0x6
  | .subn x y => formatXYN 0x8 x y 0x7
  | .shl x y => formatXYN 0x8 x y 0xE
  | .sneReg x y => formatXYN 0x9 x y 0x0
  | .ldI nnn => formatNNN 0xA nnn
  | .jpV0 nnn => formatNNN 0xB nnn
  | .rnd x kk => formatXKK 0xC x kk
  | .drw x y n => formatXYN 0xD x y n
  | .skp x => formatXKK 0xE x 0x9E
  | .sknp x => formatXKK 0xE x 0xA1
  | .ldVxDt x => formatXKK 0xF x 0x07
  | .ldVxK x => formatXKK 0xF x 0x0A
  | .ldDtVx x => formatXKK 0xF x 0x15
  | .ldStVx x => formatXKK 0xF x 0x18
  | .addI x => formatXKK 0xF x 0x1E
  | .ldF x => formatXKK 0xF x 0x29
  | .ldB x => formatXKK 0xF x 0x33
  | .storeRegs x => formatXKK 0xF x 0x55
  | .loadRegs x => formatXKK 0xF x 0x65
  | .dw w => w

/-- The bytes of an instruction as memory holds them (R65). -/
def encodeBytes (i : Instr) : List Byte := [hiByte (encode i), loByte (encode i)]

/-! ### Assembler syntax (R89)

The conventional mnemonics and the order of the operands; no meaning depends on them. The y field of 8xy6
and 8xyE stands in no operand, so the assembler fills it, with 0 as the spec's programs do
(notes/assumptions 24). -/

/-- The mnemonics of R89. -/
inductive Mnemonic where
  | cls | ret | jp | call | se | sne | ld | add | or | and | xor | sub | shr | subn | shl | rnd | drw | skp | sknp
  /-- the data word of the default row -/
  | dw
deriving DecidableEq, Repr

/-- The operands of R89. -/
inductive AsmOperand where
  /-- `V0` to `VF` -/
  | v (r : Reg)
  /-- `kk` -/
  | byte (kk : Byte)
  /-- `nnn` -/
  | addr (nnn : Addr)
  /-- the row count `n` -/
  | rows (n : BitVec 4)
  /-- `wwww` -/
  | word (w : Word)
  /-- `I` -/
  | i
  /-- `[I]` -/
  | atI
  /-- `DT` -/
  | dt
  /-- `ST` -/
  | st
  /-- `K`, a key waited for -/
  | k
  /-- `F`, the glyph of a register -/
  | f
  /-- `B`, the decimal digits of a register -/
  | b
deriving DecidableEq, Repr

/-- A line of assembler: `MNEMONIC operands`. -/
structure AsmLine where
  mnemonic : Mnemonic
  operands : List AsmOperand
deriving DecidableEq, Repr

/-- The line of an instruction, row by row of R89. -/
def toAsm : Instr → AsmLine
  | .cls => ⟨.cls, []⟩
  | .ret => ⟨.ret, []⟩
  | .jp nnn => ⟨.jp, [.addr nnn]⟩
  | .call nnn => ⟨.call, [.addr nnn]⟩
  | .seImm x kk => ⟨.se, [.v x, .byte kk]⟩
  | .sneImm x kk => ⟨.sne, [.v x, .byte kk]⟩
  | .seReg x y => ⟨.se, [.v x, .v y]⟩
  | .ldImm x kk => ⟨.ld, [.v x, .byte kk]⟩
  | .addImm x kk => ⟨.add, [.v x, .byte kk]⟩
  | .ldReg x y => ⟨.ld, [.v x, .v y]⟩
  | .orReg x y => ⟨.or, [.v x, .v y]⟩
  | .andReg x y => ⟨.and, [.v x, .v y]⟩
  | .xorReg x y => ⟨.xor, [.v x, .v y]⟩
  | .addReg x y => ⟨.add, [.v x, .v y]⟩
  | .subReg x y => ⟨.sub, [.v x, .v y]⟩
  | .shr x _ => ⟨.shr, [.v x]⟩
  | .subn x y => ⟨.subn, [.v x, .v y]⟩
  | .shl x _ => ⟨.shl, [.v x]⟩
  | .sneReg x y => ⟨.sne, [.v x, .v y]⟩
  | .ldI nnn => ⟨.ld, [.i, .addr nnn]⟩
  | .jpV0 nnn => ⟨.jp, [.v V0, .addr nnn]⟩
  | .rnd x kk => ⟨.rnd, [.v x, .byte kk]⟩
  | .drw x y n => ⟨.drw, [.v x, .v y, .rows n]⟩
  | .skp x => ⟨.skp, [.v x]⟩
  | .sknp x => ⟨.sknp, [.v x]⟩
  | .ldVxDt x => ⟨.ld, [.v x, .dt]⟩
  | .ldVxK x => ⟨.ld, [.v x, .k]⟩
  | .ldDtVx x => ⟨.ld, [.dt, .v x]⟩
  | .ldStVx x => ⟨.ld, [.st, .v x]⟩
  | .addI x => ⟨.add, [.i, .v x]⟩
  | .ldF x => ⟨.ld, [.f, .v x]⟩
  | .ldB x => ⟨.ld, [.b, .v x]⟩
  | .storeRegs x => ⟨.ld, [.atI, .v x]⟩
  | .loadRegs x => ⟨.ld, [.v x, .atI]⟩
  | .dw w => ⟨.dw, [.word w]⟩

/-- The instruction a line of R89's table stands for, y filled with 0 where the line has none; none for a line
the table does not have. -/
def assemble (l : AsmLine) : Option Instr :=
  match l.mnemonic, l.operands with
  | .cls, [] => some .cls
  | .ret, [] => some .ret
  | .jp, [.addr nnn] => some (.jp nnn)
  | .jp, [.v r, .addr nnn] => if r = V0 then some (.jpV0 nnn) else none
  | .call, [.addr nnn] => some (.call nnn)
  | .se, [.v x, .byte kk] => some (.seImm x kk)
  | .se, [.v x, .v y] => some (.seReg x y)
  | .sne, [.v x, .byte kk] => some (.sneImm x kk)
  | .sne, [.v x, .v y] => some (.sneReg x y)
  | .ld, [.v x, .byte kk] => some (.ldImm x kk)
  | .ld, [.v x, .v y] => some (.ldReg x y)
  | .ld, [.i, .addr nnn] => some (.ldI nnn)
  | .ld, [.v x, .dt] => some (.ldVxDt x)
  | .ld, [.v x, .k] => some (.ldVxK x)
  | .ld, [.dt, .v x] => some (.ldDtVx x)
  | .ld, [.st, .v x] => some (.ldStVx x)
  | .ld, [.f, .v x] => some (.ldF x)
  | .ld, [.b, .v x] => some (.ldB x)
  | .ld, [.atI, .v x] => some (.storeRegs x)
  | .ld, [.v x, .atI] => some (.loadRegs x)
  | .add, [.v x, .byte kk] => some (.addImm x kk)
  | .add, [.v x, .v y] => some (.addReg x y)
  | .add, [.i, .v x] => some (.addI x)
  | .or, [.v x, .v y] => some (.orReg x y)
  | .and, [.v x, .v y] => some (.andReg x y)
  | .xor, [.v x, .v y] => some (.xorReg x y)
  | .sub, [.v x, .v y] => some (.subReg x y)
  | .subn, [.v x, .v y] => some (.subn x y)
  | .shr, [.v x] => some (.shr x 0)
  | .shl, [.v x] => some (.shl x 0)
  | .rnd, [.v x, .byte kk] => some (.rnd x kk)
  | .drw, [.v x, .v y, .rows n] => some (.drw x y n)
  | .skp, [.v x] => some (.skp x)
  | .sknp, [.v x] => some (.sknp x)
  | .dw, [.word w] => if Word.unrecognized w then some (.dw w) else none
  | _, _ => none

/-- A mnemonic as R89 writes it. -/
def Mnemonic.text : Mnemonic → String
  | .cls => "CLS" | .ret => "RET" | .jp => "JP" | .call => "CALL" | .se => "SE" | .sne => "SNE" | .ld => "LD"
  | .add => "ADD" | .or => "OR" | .and => "AND" | .xor => "XOR" | .sub => "SUB" | .shr => "SHR"
  | .subn => "SUBN" | .shl => "SHL" | .rnd => "RND" | .drw => "DRW" | .skp => "SKP" | .sknp => "SKNP" | .dw => "DW"

/-- A hexadecimal digit, in the capitals the spec's programs use. -/
def hexDigit (n : BitVec 4) : String :=
  #v["0", "1", "2", "3", "4", "5", "6", "7", "8", "9", "A", "B", "C", "D", "E", "F"][n.toNat]'n.isLt

/-- The two digits of a byte. -/
def hexByte (b : Byte) : String := hexDigit (b.extractLsb' 4 4) ++ hexDigit (b.extractLsb' 0 4)

/-- An operand as R89 writes it: registers as V0 to VF, immediates in hex, all digits of the field. -/
def AsmOperand.text : AsmOperand → String
  | .v r => "V" ++ hexDigit r
  | .byte kk => hexByte kk
  | .addr nnn => hexDigit (nnn.extractLsb' 8 4) ++ hexByte (nnn.extractLsb' 0 8)
  | .rows n => hexDigit n
  | .word w => hexByte (hiByte w) ++ hexByte (loByte w)
  | .i => "I"
  | .atI => "[I]"
  | .dt => "DT"
  | .st => "ST"
  | .k => "K"
  | .f => "F"
  | .b => "B"

/-- A line as R89 writes it: operands separated by commas. -/
def AsmLine.text (l : AsmLine) : String :=
  match l.operands with
  | [] => l.mnemonic.text
  | ops => l.mnemonic.text ++ " " ++ ", ".intercalate (ops.map AsmOperand.text)

/-! ### Words numbered as spec/opcode_table.json numbers them -/

/-- The word of a table row: bit 0 least significant, the bits above `nbits` zero. -/
def tableWord (nbits w : Nat) : Word := BitVec.ofNat 16 (w % 2 ^ nbits)

/-- What the decoder reads from a table word laid out as the hardware stores it. -/
def decodeTableWord (nbits w : Nat) : Option Instr :=
  match decode [hiByte (tableWord nbits w), loByte (tableWord nbits w)] with
  | .ok (i, _) => some i
  | .error _ => none

end Sys2Proof
end

