-- ==== Sys2Proof/Machine/ControlFlow.lean ====
section
/-! DEFINITION. Return, jumps, call and the skips on registers (40_control_flow.md R110 to R119). -/

namespace Sys2Proof.Machine

/-- 00EE (R110): the popped value is used exactly; an empty stack gives 0x200. -/
def execRet (s : State) : Answer :=
  match s.stack with
  | [] => .next (s.jump 0x200)
  | p :: rest => .next { s with stack := rest, pc := p }

/-- 1nnn (R111). -/
def execJp (nnn : Addr) (s : State) : Answer := .next (s.jump (nnn.setWidth 16))

/-- 2nnn (R112): pushes the address of the next instruction; a full capped stack faults. -/
def execCall (nnn : Addr) (s : State) : Answer :=
  if s.stackFull then
    .next (s.raiseFault .stackOverflow (.stack (encode (.call nnn)) s.stack.length))
  else .next ((s.push (pcPlus s.pc 2)).jump (nnn.setWidth 16))

/-- 3xkk (R113). -/
def execSeImm (x : Reg) (kk : Byte) (s : State) : Answer := .next (s.skipIf (s.reg x == kk))

/-- 4xkk (R114). -/
def execSneImm (x : Reg) (kk : Byte) (s : State) : Answer := .next (s.skipIf (s.reg x != kk))

/-- 5xy0 (R115). -/
def execSeReg (x y : Reg) (s : State) : Answer := .next (s.skipIf (s.reg x == s.reg y))

/-- 9xy0 (R116). -/
def execSneReg (x y : Reg) (s : State) : Answer := .next (s.skipIf (s.reg x != s.reg y))

/-- Bnnn (R117): a 16-bit sum, not reduced mod 4096; the offset register is V0. -/
def execJpV0 (nnn : Addr) (s : State) : Answer :=
  .next (s.jump (nnn.setWidth 16 + (s.reg V0).setWidth 16))

end Sys2Proof.Machine
end

