-- ==== Sys2Proof/Machine/Display.lean ====
section
/-! DEFINITION. The framebuffer instructions (43_display.md R170, R171). -/

namespace Sys2Proof.Machine

/-- All pixels 0 (R170). -/
def clearFrame : Frame := Vector.replicate 32 0

/-- `FB[r][c]`, 0 outside the grid. -/
def Frame.pixel (fb : Frame) (r c : Nat) : Bool :=
  if h : r < 32 ∧ c < 64 then (fb[r]'h.1).getLsbD c else false

/-- `FB[r][c] <- FB[r][c] ^ 1`; nothing outside the grid. -/
def Frame.flip (fb : Frame) (r c : Nat) : Frame :=
  if h : r < 32 ∧ c < 64 then fb.set r (fb[r]'h.1 ^^^ BitVec.twoPow 64 c) h.1 else fb

/-- A drawing in progress: the pixels, and whether a set sprite bit has met a set pixel (VF). -/
structure Canvas where
  fb : Frame
  hit : Bool
deriving DecidableEq, Repr

/-- One set sprite bit at row r, column c: clipped outside the grid, else a collision is recorded and the
pixel is flipped. -/
def Canvas.plot (cv : Canvas) (r c : Nat) : Canvas :=
  if r < 32 ∧ c < 64 then ⟨Frame.flip cv.fb r c, cv.hit || Frame.pixel cv.fb r c⟩ else cv

/-- The eight bits of a sprite byte, most significant first, from column x0 on. -/
def Canvas.drawRow (cv : Canvas) (r x0 : Nat) (b : Byte) : Canvas :=
  (List.range 8).foldl (fun cv col => if b.getLsbD (7 - col) then cv.plot r (x0 + col) else cv) cv

/-- The sprite's bytes, one row each, from row r on. -/
def Canvas.drawRows (cv : Canvas) (r x0 : Nat) : List Byte → Canvas
  | [] => cv
  | b :: bs => (cv.drawRow r x0 b).drawRows (r + 1) x0 bs

/-- 00E0 (R170). -/
def execCls (s : State) : Answer := .next { s with fb := clearFrame, dirty := true }.nextInstr

/-- The drawing of Dxyn on the state before it: coordinates read before VF is cleared (R171). -/
def drawing (x y n : BitVec 4) (s : State) : Canvas :=
  Canvas.drawRows ⟨s.fb, false⟩ (s.spriteRow y) (s.spriteCol x) (s.loadList (s.dataAddr 0) n.toNat)

/-- The state with a finished drawing: FB and VF from it, DIRTY set (R171). -/
def State.withDrawing (s : State) (cv : Canvas) : State :=
  { s.setReg VF (flagByte cv.hit) with fb := cv.fb, dirty := true }

/-- Dxyn (R171): n = 0 reads no memory, so nothing is checked. -/
def execDrw (x y n : BitVec 4) (s : State) : Answer :=
  if n = 0 then .next (s.withDrawing (drawing x y n s)).nextInstr
  else
    s.checkData (encode (.drw x y n)) (s.dataAddr 0) (s.dataAddr (n.toNat - 1))
      (s.withDrawing (drawing x y n s)).nextInstr

end Sys2Proof.Machine
end

