-- ==== Sys2Proof/Machine/IndexMemory.lean ====
section
/-! DEFINITION. The address register and the memory transfers (42_index_memory.md R150 to R156). No
transfer modifies I (R156). -/

namespace Sys2Proof.Machine

/-- Annn (R150). -/
def execLdI (nnn : Addr) (s : State) : Answer := .next { s with I := nnn }.nextInstr

/-- Fx1E (R151): wraps mod 4096; VF is not written. -/
def execAddI (x : Reg) (s : State) : Answer := .next { s with I := s.I + (s.reg x).setWidth 12 }.nextInstr

/-- Fx29 (R152). -/
def execLdF (x : Reg) (s : State) : Answer := .next { s with I := s.glyphAddr x }.nextInstr

/-- Fx33 (R153). -/
def execLdB (x : Reg) (s : State) : Answer :=
  s.checkData (encode (.ldB x)) (s.dataAddr 0) (s.dataAddr 2)
    (s.storeList (s.dataAddr 0) (bcdDigits (s.reg x))).nextInstr

/-- Fx55 (R154). -/
def execStoreRegs (x : Reg) (s : State) : Answer :=
  s.checkData (encode (.storeRegs x)) (s.dataAddr 0) (s.dataAddr x.toNat)
    (s.storeList (s.dataAddr 0) (s.regsUpTo x)).nextInstr

/-- Fx65 (R155). -/
def execLoadRegs (x : Reg) (s : State) : Answer :=
  s.checkData (encode (.loadRegs x)) (s.dataAddr 0) (s.dataAddr x.toNat) (s.loadRegsUpTo x).nextInstr

end Sys2Proof.Machine
end

