-- ==== Sys2Proof/Machine/InputTimers.lean ====
section
/-! DEFINITION. The key and timer instructions (44_input_timers.md R180 to R185). -/

namespace Sys2Proof.Machine

/-- A skip on the key in Vx: KEY_INDEX_OUT_OF_RANGE when Vx is above 0xF, else skip when `taken` of the
key's state holds (R180, R181); `w` is the instruction's word. -/
def State.skipOnKey (s : State) (w : Word) (x : Reg) (taken : Bool → Bool) : State :=
  match s.keyOperand x with
  | none => s.raiseFault .keyIndexOutOfRange (.key w (s.reg x))
  | some k => s.skipIf (taken (s.keyDown k))

/-- Ex9E (R180). -/
def execSkp (x : Reg) (s : State) : Answer := .next (s.skipOnKey (encode (.skp x)) x id)

/-- ExA1 (R181). -/
def execSknp (x : Reg) (s : State) : Answer := .next (s.skipOnKey (encode (.sknp x)) x not)

/-- Fx07 (R182). -/
def execLdVxDt (x : Reg) (s : State) : Answer := .next (s.setReg x s.dt).nextInstr

/-- The key index written to Vx, and pc past Fx0A (R183, R186). -/
def State.takeKey (s : State) (x : Reg) (k : KeyIndex) : State := (s.setReg x (k.setWidth 8)).nextInstr

/-- Fx0A (R183): under `level` a held key is taken at once; otherwise the wait begins and pc stays. -/
def execLdVxK (x : Reg) (s : State) : Answer :=
  match s.params.keyWait, s.leastKey with
  | .level, some k => .next (s.takeKey x k)
  | .level, none => .next { s with awaitKey := some x }
  | .edge, _ => .next { s with awaitKey := some x }

/-- Fx15 (R184). -/
def execLdDtVx (x : Reg) (s : State) : Answer := .next { s with dt := s.reg x }.nextInstr

/-- Fx18 (R185): no beep. -/
def execLdStVx (x : Reg) (s : State) : Answer := .next { s with st := s.reg x }.nextInstr

end Sys2Proof.Machine
end

