-- ==== Sys2Proof/Machine/Unrecognized.lean ====
section
/-! DEFINITION. The default row (45_unrecognized.md R200). -/

namespace Sys2Proof.Machine

/-- An unrecognized word (R200): a diagnostic, and pc + 2. -/
def execDw (w : Word) (s : State) : Answer := .next (s.emit (.diag s.pc w)).nextInstr

end Sys2Proof.Machine
end

