-- ==== Sys2Proof/Machine/Sequencer.lean ====
section
/-! DEFINITION. The instruction slot (30_encoding.md R83), the key-wait slot (44_input_timers.md R186),
the timers, beep and publish, and the tick (60_exceptions.md R222 to R227). -/

namespace Sys2Proof.Machine

/-- A function of the next state applied to an answer. -/
def Answer.andThen (a : Answer) (f : State → State) : Answer :=
  match a with
  | .next t => .next (f t)
  | .fault r => .fault r
  | .refused r => .refused r

/-! ### The instruction slot -/

/-- One queued event applied to K (R83). -/
def applyKey (keys : Vector Bool 16) (e : KeyEvent) : Vector Bool 16 :=
  keys.set e.key.toNat (e.kind == .down) e.key.isLt

/-- The key-down indices of a queue, in queue order (R83). -/
def downsOf (kq : List KeyEvent) : List KeyIndex :=
  kq.filterMap fun e => if e.kind = .down then some e.key else none

namespace State

/-- KQ drained, oldest first, into K (10_state.md R37). -/
def drain (s : State) : State := { s with keys := s.kq.foldl applyKey s.keys, kq := [] }

/-- The key that ends the wait, if any: the first key-down of the drain, or under `level` the least held
key (R186). -/
def waitedKey (s : State) (downs : List KeyIndex) : Option KeyIndex :=
  match s.params.keyWait with
  | .edge => downs.head?
  | .level => s.leastKey

/-- `KeyWaitSlot(downs)` while AWAIT = some x (R186); `takeKey` writes Vx and moves pc past Fx0A. -/
def keyWaitSlot (s : State) (x : Reg) (downs : List KeyIndex) : State :=
  match s.waitedKey downs with
  | some k => { s.takeKey x k with awaitKey := none }
  | none => s

/-- The word at pc, high byte first (R80). -/
def fetchWord (s : State) : Word := wordOfBytes (s.load s.pc.toNat) (s.load (s.pc.toNat + 1))

end State

/-- Fetch, decode, execute: the fetch check comes before any byte is read (R80, R84). -/
def fetchExec (s : State) : Answer :=
  if 0xFFE < s.pc.toNat then .next (s.raiseFault .fetchOutOfRange .fetch)
  else exec (decodeWord s.fetchWord) s

/-- `execute_one()`: drain KQ, serve a pending key wait, else fetch and execute (R83). -/
def slot (s : State) : Answer :=
  match s.drain.awaitKey with
  | some x => .next (s.drain.keyWaitSlot x (downsOf s.kq))
  | none => fetchExec s.drain

/-! ### Ticks -/

namespace State

/-- `TimerStep()`: each timer down by one unless 0, and a beep when ST comes to 1 (R224, R225). -/
def timerStep (s : State) : State :=
  let t := { s with dt := if s.dt = 0 then 0 else s.dt - 1 }
  if t.st = 0 then t
  else
    let u := { t with st := t.st - 1 }
    if u.st = 1 then u.emit .beep else u

/-- The frame sent and DIRTY cleared (R226, R232). -/
def publish (s : State) : State := { s.emit (.frame s.fb) with dirty := false }

/-- What a tick does after its slots: the timers unless paused with `P_PAUSED_TIMERS` off, then the publish
if DIRTY (R222, R227). -/
def tickEnd (s : State) : State :=
  let t := if s.run = .running ∨ s.params.pausedTimers = true then s.timerStep else s
  if t.dirty then t.publish else t

/-- After a slot of a tick: a latched fault abandons the tick, the last slot ends it, and otherwise the
next slot is due (R212, R222). -/
def afterSlot (s : State) : State :=
  if s.fault.isSome then { s with slotsLeft := 0 }
  else if s.slotsLeft = 0 then s.tickEnd
  else s

end State

/-- CPT, the slots of a running tick (R222, R223). -/
def slotsPerTick (ips : Nat) : Nat := max 1 (ips / 60)

/-- One slot of a tick after which `k` slots are left. -/
def tickSlot (k : Nat) (s : State) : Answer := Answer.andThen (slot { s with slotsLeft := k }) State.afterSlot

/-- A TICK begins: while Running its first slot runs, with CPT computed now; while Paused no slot runs; while
Stopped there is no tick (R221, R222, R227). -/
def tick (s : State) : Answer :=
  match s.run with
  | .running => tickSlot (slotsPerTick s.ips - 1) s
  | .paused => .next s.tickEnd
  | .stopped => .next s

end Sys2Proof.Machine
end

