-- ==== Sys2Proof/Machine/Snapshot.lean ====
section
/-! DEFINITION. Snapshots (70_reset_and_hazards.md R280 to R286): the record, its validity, the codec
parameter `P_SNAPSHOT_CODEC` with its two laws, and what save captures and load replaces. -/

namespace Sys2Proof.Machine

/-- The fields of R280. Widths hold by type; the two bounds that remain are `Snapshot.inRange`. -/
structure Snapshot where
  mem : Vector Byte 4096
  v : Vector Byte 16
  fb : Frame
  stack : List Pc
  pc : Pc
  I : Addr
  dt : Byte
  st : Byte
  keys : Vector Bool 16
  awaitKey : Option Reg
  fault : Option FaultRecord
  img : Bytes
deriving DecidableEq, Repr

/-- Every field is in range (R283): the image fits, and the stack respects the cap if it is set. -/
def Snapshot.inRange (cap : Option Nat) (p : Snapshot) : Bool :=
  decide (p.img.length ≤ Config.maxProgram) && cap.all fun n => decide (p.stack.length ≤ n)

/-! ### A codec exists

R281 leaves the byte layout open. The codec below exists only to show that the two laws can be met: it
numbers the snapshots and writes the number in unary. No theorem can learn that a machine uses it. -/

namespace UnaryCodec

/-- Bit vectors are numbered by their value. -/
abbrev bits (w : Nat) : Encodable (BitVec w) :=
  Encodable.ofLeftInverse BitVec.toNat (BitVec.ofNat w) fun b => by simp

/-- Vectors are numbered as their lists. -/
abbrev vector {α : Type} (e : Encodable α) (n : Nat) : Encodable (Vector α n) :=
  Encodable.ofLeftInjection Vector.toList
    (fun l => if h : l.length = n then some ⟨l.toArray, by simp [h]⟩ else none) fun v => by
      simp only [Vector.length_toList, ↓reduceDIte, Option.some.injEq]
      exact Vector.toArray_inj.mp (Array.toArray_toList (xs := v.toArray))

/-- A fault record as pairs and sums. -/
abbrev faultParts (f : FaultRecord) :
    Nat × Pc × (Unit ⊕ (Word × Nat × Nat) ⊕ (Word × Byte) ⊕ (Word × Nat)) :=
  (match f.cause with
    | .fetchOutOfRange => 0
    | .dataOutOfRange => 1
    | .keyIndexOutOfRange => 2
    | .stackOverflow => 3,
   f.pc,
   match f.info with
    | .fetch => .inl ()
    | .data w a b => .inr (.inl (w, a, b))
    | .key w k => .inr (.inr (.inl (w, k)))
    | .stack w d => .inr (.inr (.inr (w, d))))

/-- The record of the parts. -/
abbrev faultOfParts :
    Nat × Pc × (Unit ⊕ (Word × Nat × Nat) ⊕ (Word × Byte) ⊕ (Word × Nat)) → FaultRecord
  | (c, pc, i) =>
    ⟨match c with
      | 0 => .fetchOutOfRange
      | 1 => .dataOutOfRange
      | 2 => .keyIndexOutOfRange
      | _ => .stackOverflow,
     pc,
     match i with
      | .inl () => .fetch
      | .inr (.inl (w, a, b)) => .data w a b
      | .inr (.inr (.inl (w, k))) => .key w k
      | .inr (.inr (.inr (w, d))) => .stack w d⟩

/-- Fault records are numbered by their parts. -/
abbrev faultRecord : Encodable FaultRecord :=
  letI := bits
  Encodable.ofLeftInverse faultParts faultOfParts fun ⟨c, _, i⟩ => by cases c <;> cases i <;> rfl

/-- Snapshots are numbered. -/
abbrev snapshot : Encodable Snapshot :=
  letI := bits
  letI := faultRecord
  letI : Encodable (Vector Byte 4096) := vector inferInstance 4096
  letI : Encodable (Vector Byte 16) := vector inferInstance 16
  letI : Encodable Frame := vector inferInstance 32
  letI : Encodable (Vector Bool 16) := vector inferInstance 16
  Encodable.ofLeftInverse
    (fun p : Snapshot =>
      (p.mem, p.v, p.fb, p.stack, p.pc, p.I, p.dt, p.st, p.keys, p.awaitKey, p.fault, p.img))
    (fun (mem, v, fb, stack, pc, I, dt, st, keys, awaitKey, fault, img) =>
      ⟨mem, v, fb, stack, pc, I, dt, st, keys, awaitKey, fault, img⟩)
    fun _ => rfl

/-- The number, in unary. -/
def write (p : Snapshot) : Bytes := List.replicate (snapshot.encode p) 0

/-- The snapshot with that number, if it is in range. -/
def parse (cap : Option Nat) (b : Bytes) : Option Snapshot :=
  (snapshot.decode b.length).filter (Snapshot.inRange cap)

theorem parse_write (cap : Option Nat) (p : Snapshot) (h : p.inRange cap = true) :
    parse cap (write p) = some p := by
  simp [parse, write, h]

theorem parse_inRange (cap : Option Nat) (b : Bytes) (p : Snapshot) (h : parse cap b = some p) :
    p.inRange cap = true :=
  (Option.filter_eq_some_iff.mp h).2

end UnaryCodec

/-- `P_SNAPSHOT_CODEC` for a given stack cap: two total functions and the two laws of R281. -/
structure SnapshotCodec (cap : Option Nat) where
  /-- the blob of a snapshot -/
  encode : Snapshot → Bytes := UnaryCodec.write
  /-- the snapshot of a blob; none when it is malformed or foreign -/
  decode : Bytes → Option Snapshot := UnaryCodec.parse cap
  /-- R281 (1) -/
  decode_encode : ∀ p : Snapshot, p.inRange cap = true → decode (encode p) = some p := by
    exact UnaryCodec.parse_write cap
  /-- R281 (2) -/
  decode_inRange : ∀ (b : Bytes) (p : Snapshot), decode b = some p → p.inRange cap = true := by
    exact UnaryCodec.parse_inRange cap
deriving Inhabited

end Sys2Proof.Machine

namespace Sys2Proof.Config

/-- `P_SNAPSHOT_CODEC`, which the spec leaves open (00_scope.md R7, 70_reset_and_hazards.md R281).
DESIGN CHOICE (notes/assumptions 6): free but for the two laws, no body. -/
opaque snapshotCodec (cap : Option Nat) : Machine.SnapshotCodec cap

end Sys2Proof.Config

namespace Sys2Proof.Machine

namespace State

/-- The record of R280 built from the current state (R282). -/
def snapshot (s : State) : Snapshot where
  mem := Vector.ofFn fun a : Fin 4096 => s.load a.val
  v := s.v
  fb := s.fb
  stack := s.stack
  pc := s.pc
  I := s.I
  dt := s.dt
  st := s.st
  keys := s.keys
  awaitKey := s.awaitKey
  fault := s.fault
  img := s.img

/-- All the fields of R280 replaced at once, and DIRTY set; RUN, IPS and KQ unchanged (R284). -/
def restore (s : State) (p : Snapshot) : State :=
  { s with
    mem := Mem.ofBytes s.params.font 0 p.mem.toList
    v := p.v
    fb := p.fb
    stack := p.stack
    pc := p.pc
    I := p.I
    dt := p.dt
    st := p.st
    keys := p.keys
    awaitKey := p.awaitKey
    fault := p.fault
    img := p.img
    dirty := true }

/-- The machine's codec. -/
def codec (s : State) : SnapshotCodec s.params.stackCap := Config.snapshotCodec s.params.stackCap

end State

end Sys2Proof.Machine
end

