-- ==== Sys2Proof/Machine/Requests.lean ====
section
/-! DEFINITION. The host's requests: when each is accepted and what it does (60_exceptions.md R214, R230 to
R232; 70_reset_and_hazards.md R261 to R287). Every request is answered by one result event (R240). -/

namespace Sys2Proof.Machine

namespace State

/-- The request's result sent to the host (R240). -/
def reply (s : State) (r : RequestResult) : State := s.emit (.result r)

/-- RUN is Stopped or Paused (R230). -/
def halted (s : State) : Bool := s.run != .running

/-- RUN is Running or Paused (R230). -/
def active (s : State) : Bool := s.run != .stopped

/-- A request taken when `accepted`; refused otherwise with USAGE_ERROR and no other change (R214, R230). -/
def request (s : State) (accepted : Bool) (effect : State) : State :=
  if accepted then effect else s.reply .usageError

/-- `Reset()`: everything but RUN, IPS, KQ and IMG (R266; 10_state.md R45). -/
def resetMachine (s : State) : State :=
  { s with
    mem := initMem s.params.font s.img
    v := Vector.replicate 16 0
    I := 0
    pc := 0x200
    stack := []
    dt := 0
    st := 0
    fb := clearFrame
    keys := Vector.replicate 16 false
    awaitKey := none
    fault := none
    dirty := true }

/-- `LoadProgram(p)`: IMG and memory alone, or SIZE_ERROR and no change (R261, R262). -/
def loadProgram (s : State) (image : Bytes) : State :=
  if Config.maxProgram < image.length then s.reply .sizeError
  else { s with img := image, mem := initMem s.params.font image }.reply .ok

/-- `Save()`: the blob of the current snapshot; no state changes (R282). -/
def save (s : State) : State := (s.emit (.blob (s.codec.encode s.snapshot))).reply .ok

/-- `LoadSnapshot(b)`: the decoded fields all at once, or FORMAT_ERROR and no change (R284, R285). -/
def loadSnapshot (s : State) (blob : Bytes) : State :=
  match s.codec.decode blob with
  | none => s.reply .formatError
  | some p => (s.restore p).reply .ok

/-- Running becomes Paused and Paused Running (R230, R38). -/
def togglePause (s : State) : State :=
  match s.run with
  | .running => { s with run := .paused }
  | .paused => { s with run := .running }
  | .stopped => s

/-- After a single step's slot: a publish without condition, unless a fault is latched (R232). -/
def afterStep (s : State) : State := (if s.fault.isSome then s else s.publish).reply .ok

end State

/-- One event from the host or the timebase, already taken off `inputs` (R230). -/
def serve (r : Input) (s : State) : Answer :=
  match r with
  | .tick => tick s
  | .key e => .next ({ s with kq := s.kq ++ [e] }.reply .ok)
  | .start => .next (s.request (s.run == .stopped && s.fault.isNone) ({ s with run := .running }.reply .ok))
  | .stop => .next (s.request s.active ({ s with run := .stopped }.reply .ok))
  | .togglePause => .next (s.request s.active (s.togglePause.reply .ok))
  | .step =>
    if s.halted && s.fault.isNone then Answer.andThen (slot s) State.afterStep
    else .next (s.reply .usageError)
  | .setRate v => .next ({ s with ips := v }.reply .ok)
  | .loadProgram image => .next (s.request s.halted (s.loadProgram image))
  | .reset => .next (s.request s.halted (s.resetMachine.reply .ok))
  | .save => .next (s.request s.halted s.save)
  | .loadSnapshot blob => .next (s.request s.halted (s.loadSnapshot blob))

end Sys2Proof.Machine
end

