-- ==== Sys2Proof/Machine/Step.lean ====
section
/-! DEFINITION. One step of the machine, and where a test places the next instruction. -/

namespace Sys2Proof.Machine

/-- One step. A posted key event joins KQ at any moment. Otherwise, inside a tick the next slot runs
(60_exceptions.md R222); between ticks the host's next event is taken, one at a time and in order (R215,
R231); and when none is waiting the timebase sends the next TICK, which a Stopped machine does not see
(R221; notes/assumptions 8, 9). -/
def step (s : State) : Host.Outcome State Fault Refusal :=
  match s.inputs, s.slotsLeft with
  | .key e :: rest, _ => serve (.key e) { s with inputs := rest }
  | _, k + 1 => tickSlot k s
  | r :: rest, 0 => serve r { s with inputs := rest }
  | [], 0 => tick s

/-- Whether an input is a key event. -/
def Input.isKey : Input → Bool
  | .key _ => true
  | _ => false

/-- The pc a test word is placed at: the pc itself where a fetch from it can succeed, else 0x200. -/
def State.testPc (s : State) : Pc := if s.pc.toNat ≤ 0xFFE then s.pc else 0x200

/-- `s` with a table word where step fetches its next instruction: at pc, with the machine inside a tick that
has two slots to go, no key wait, no latched fault and no key event to post first (notes/assumptions 10). -/
def State.withFetchWord (s : State) (nbits w : Nat) : State :=
  { s.storeList s.testPc.toNat [hiByte (tableWord nbits w), loByte (tableWord nbits w)] with
    pc := s.testPc
    run := .running
    slotsLeft := 2
    awaitKey := none
    fault := none
    inputs := s.inputs.dropWhile Input.isKey }

end Sys2Proof.Machine
end

