-- ==== Sys2Proof/Safety.lean ====
section
/-! DEFINITION. What the statements are said in: the invariant of every run, the faulted and the successful
end (60_exceptions.md R253), and which parts of the state two states share. -/

namespace Sys2Proof.Machine

namespace State

/-- What every step keeps: memory is in canonical form, the image fits (R261), the stack respects the cap
(R112), and a tick is in progress only while Running (60_exceptions.md R222). -/
def Inv (s : State) : Prop :=
  Memory.wf s.params.font s.mem ∧
  s.img.length ≤ Config.maxProgram ∧
  (∀ n, s.params.stackCap = some n → s.stack.length ≤ n) ∧
  (0 < s.slotsLeft → s.run = .running)

/-- The next step runs a slot of a running tick on `u`, which counts the slots left after it: a slot inside the
tick in progress with no key event to post first; or the first of CPT slots of a tick that begins, with no
event waiting (the model's choice, notes/assumptions 9) or with a TICK taken off `inputs`
(60_exceptions.md R222, R223). -/
def SlotDue (s u : State) : Prop :=
  (∃ k, s.slotsLeft = k + 1 ∧ (∀ e rest, s.inputs ≠ .key e :: rest) ∧ u = { s with slotsLeft := k }) ∨
  (s.slotsLeft = 0 ∧ s.run = .running ∧ s.inputs = [] ∧
    u = { s with slotsLeft := max 1 (s.ips / 60) - 1 }) ∨
  (∃ rest, s.slotsLeft = 0 ∧ s.run = .running ∧ s.inputs = .tick :: rest ∧
    u = { s with slotsLeft := max 1 (s.ips / 60) - 1, inputs := rest })

/-- A faulted end, which is a failure (R253). -/
def faultedEnd (s : State) : Prop := s.fault ≠ none

/-- The successful end (R253): no fault, no key wait, and the word at pc is `1nnn` with nnn = pc. -/
def parked (s : State) : Prop :=
  s.fault = none ∧ s.awaitKey = none ∧ s.pc.toNat ≤ 0xFFE ∧ s.fetchWord.toNat = 0x1000 + s.pc.toNat

end State

/-- The parts of the state a statement speaks of. -/
inductive Part where
  /-- V0 to VF -/
  | regs
  /-- I -/
  | index
  | pc
  | stack
  /-- DT -/
  | dt
  /-- ST -/
  | st
  /-- every byte of memory, through a read of it -/
  | memory
  /-- FB -/
  | pixels
  | dirty
  /-- AWAIT -/
  | wait
  | run
  /-- FAULT -/
  | latch
  /-- the tick in progress -/
  | tickLeft
  /-- the emitted events -/
  | outputs
  /-- the count of random draws -/
  | draws
  /-- K -/
  | keys
  /-- KQ -/
  | queue
  /-- IPS -/
  | rate
  /-- IMG -/
  | image
  /-- the host's events to come -/
  | inputs
  /-- the parameters -/
  | params
deriving DecidableEq, Repr

/-- The part is the same in both states; memory is compared byte by byte, registers one by one. -/
def Part.Same (s t : State) : Part → Prop
  | .regs => ∀ r : Reg, t.reg r = s.reg r
  | .index => t.I = s.I
  | .pc => t.pc = s.pc
  | .stack => t.stack = s.stack
  | .dt => t.dt = s.dt
  | .st => t.st = s.st
  | .memory => ∀ a : Nat, t.load a = s.load a
  | .pixels => t.fb = s.fb
  | .dirty => t.dirty = s.dirty
  | .wait => t.awaitKey = s.awaitKey
  | .run => t.run = s.run
  | .latch => t.fault = s.fault
  | .tickLeft => t.slotsLeft = s.slotsLeft
  | .outputs => t.out = s.out
  | .draws => t.draws = s.draws
  | .keys => t.keys = s.keys
  | .queue => t.kq = s.kq
  | .rate => t.ips = s.ips
  | .image => t.img = s.img
  | .inputs => t.inputs = s.inputs
  | .params => t.params = s.params

namespace State

/-- Every part but the listed ones is the same in both states. -/
def OnlyChanges (parts : List Part) (s t : State) : Prop := ∀ p, p ∉ parts → Part.Same s t p

/-- Every general register but the listed ones is the same in both states. -/
def RegsSameBut (regs : List Reg) (s t : State) : Prop := ∀ r, r ∉ regs → t.reg r = s.reg r

/-- Every byte outside the n bytes from `first` on reads the same in both states. -/
def MemorySameOutside (first n : Nat) (s t : State) : Prop :=
  ∀ a, a < first ∨ first + n ≤ a → t.load a = s.load a

/-- pc has moved on by k, wherever the 16-bit sum exists (10_state.md R26). -/
def PcMovedBy (k : Nat) (s t : State) : Prop := s.pc.toNat + k < 0x10000 → t.pc.toNat = s.pc.toNat + k

/-- The state after a fault was raised in `s`: latched with this cause, the pc and this info; RUN Stopped;
Error emitted; the tick abandoned; every other part as it was (60_exceptions.md R212). -/
def Raised (cause : FaultCause) (info : FaultInfo) (s t : State) : Prop :=
  t.fault = some ⟨cause, s.pc, info⟩ ∧ t.run = .stopped ∧ t.slotsLeft = 0 ∧
    t.out = s.out ++ [.error ⟨cause, s.pc, info⟩] ∧
    OnlyChanges [.latch, .run, .tickLeft, .outputs] s t

/-- The state after a refused request: one USAGE_ERROR result emitted, nothing
else changed (60_exceptions.md R214). -/
def Refused (s t : State) : Prop :=
  t.out = s.out ++ [.result .usageError] ∧ OnlyChanges [.outputs] s t

end State

/-- When an instruction faults, with the cause and the info recorded: the table of 60_exceptions.md R211
(its first row is the fetch's, which is no instruction's). -/
def faultCondition (i : Instr) (s : State) : Option (FaultCause × FaultInfo) :=
  match i with
  | .call _ =>
    if s.params.stackCap = some s.stack.length then
      some (.stackOverflow, .stack (encode i) s.stack.length) else none
  | .drw _ _ n =>
    if 0 < n.toNat ∧ 0xFFF < s.I.toNat + n.toNat - 1 then
      some (.dataOutOfRange, .data (encode i) s.I.toNat (s.I.toNat + n.toNat - 1)) else none
  | .skp x =>
    if 0xF < (s.reg x).toNat then some (.keyIndexOutOfRange, .key (encode i) (s.reg x)) else none
  | .sknp x =>
    if 0xF < (s.reg x).toNat then some (.keyIndexOutOfRange, .key (encode i) (s.reg x)) else none
  | .ldB _ =>
    if 0xFFF < s.I.toNat + 2 then
      some (.dataOutOfRange, .data (encode i) s.I.toNat (s.I.toNat + 2)) else none
  | .storeRegs x =>
    if 0xFFF < s.I.toNat + x.toNat then
      some (.dataOutOfRange, .data (encode i) s.I.toNat (s.I.toNat + x.toNat)) else none
  | .loadRegs x =>
    if 0xFFF < s.I.toNat + x.toNat then
      some (.dataOutOfRange, .data (encode i) s.I.toNat (s.I.toNat + x.toNat)) else none
  | .cls | .ret | .jp _ | .seImm _ _ | .sneImm _ _ | .seReg _ _ | .ldImm _ _ | .addImm _ _ | .ldReg _ _
  | .orReg _ _ | .andReg _ _ | .xorReg _ _ | .addReg _ _ | .subReg _ _ | .shr _ _ | .subn _ _ | .shl _ _
  | .sneReg _ _ | .ldI _ | .jpV0 _ | .rnd _ _ | .ldVxDt _ | .ldVxK _ | .ldDtVx _ | .ldStVx _ | .addI _
  | .ldF _ | .dw _ => none

/-- The general registers an instruction may write (10_state.md R22). -/
def regsWritten (i : Instr) : List Reg :=
  match i with
  | .ldImm x _ | .addImm x _ | .ldReg x _ | .orReg x _ | .andReg x _ | .xorReg x _ | .rnd x _
  | .ldVxDt x | .ldVxK x => [x]
  | .addReg x _ | .subReg x _ | .shr x _ | .subn x _ | .shl x _ => [x, VF]
  | .drw _ _ _ => [VF]
  | .loadRegs x => (List.range (x.toNat + 1)).map (BitVec.ofNat 4)
  | .cls | .ret | .jp _ | .call _ | .seImm _ _ | .sneImm _ _ | .seReg _ _ | .sneReg _ _ | .ldI _ | .jpV0 _
  | .skp _ | .sknp _ | .ldDtVx _ | .ldStVx _ | .addI _ | .ldF _ | .ldB _ | .storeRegs _ | .dw _ => []

/-- The sprite bit that lands on pixel (r, c) when n rows from memory I on are drawn with the top left bit
at row y0, column x0 (43_display.md R171): row r - y0 of the sprite, column c - x0, column 0 being bit 7. -/
def spriteBit (s : State) (n x0 y0 r c : Nat) : Bool :=
  decide (y0 ≤ r ∧ r < y0 + n ∧ x0 ≤ c ∧ c < x0 + 8) && (s.load (s.I.toNat + (r - y0))).getLsbD (7 - (c - x0))

end Sys2Proof.Machine
end

