-- ==== Sys2Proof/Certificates/Slice0/Obligations.lean ====
section
/-! DEFINITION. The statements for the provers, each a `Prop`; OBLIGATIONS.json lists them. Results are said
in the spec's own arithmetic on unsigned numbers; what stays the same is said by `OnlyChanges` (every part
of the state but the named ones, memory byte by byte), `RegsSameBut` and `MemorySameOutside`. -/

open Sys2Proof Sys2Proof.Machine Sys2Proof.Machine.State

/-! ### Encoding -/

/-- Decode of encode is the instruction, for every well-formed instruction, every operand at every value the
encoding admits, whatever bytes follow (R81, R82, R85). -/
def Obligations.DecodeOfEncode : Prop :=
  ∀ (i : Instr) (rest : List Byte), i.wf = true → decode (encodeBytes i ++ rest) = .ok (i, rest)

/-- Encode of decode is the two bytes, and what is decoded is well formed: no bit of a word is dropped, and
each instruction has one word (the y field of 8xy6 and 8xyE included). -/
def Obligations.EncodeOfDecode : Prop :=
  ∀ hi lo : Byte, (decodeWord (wordOfBytes hi lo)).wf = true ∧
    encodeBytes (decodeWord (wordOfBytes hi lo)) = [hi, lo]

/-- R82: the decoder gives the row a word selects by mask and match, no two rows 1 to 34 select the same word,
and the default row takes exactly the words no row selects. -/
def Obligations.DecodeSelectsTableRow : Prop :=
  opRows.length = 34 ∧
  (∀ (w : Word) (r : OpRow), r ∈ opRows → r.selects w = true → (decodeWord w).row = r) ∧
  (∀ (w : Word) (r q : OpRow), r ∈ opRows → q ∈ opRows → r.selects w = true → q.selects w = true → r = q) ∧
  (∀ w : Word, decodeWord w = .dw w ↔ ∀ r ∈ opRows, r.selects w = false)

/-- R81: the fields of a word as bit groups of its value; kk is y:n, and nnn is x:kk. -/
def Obligations.WordFields : Prop :=
  ∀ w : Word,
    (opOf w).toNat = w.toNat / 4096 ∧ (xOf w).toNat = w.toNat / 256 % 16 ∧
    (yOf w).toNat = w.toNat / 16 % 16 ∧ (nOf w).toNat = w.toNat % 16 ∧
    (kkOf w).toNat = 16 * (yOf w).toNat + (nOf w).toNat ∧
    (nnnOf w).toNat = 256 * (xOf w).toNat + (kkOf w).toNat

/-- A few words written out from R82's patterns decode to the instructions they stand for. -/
def Obligations.WrittenOutWordsDecode : Prop :=
  decodeWord 0b0000000011101110#16 = .ret ∧
  decodeWord 0b0001101010111100#16 = .jp 0xABC#12 ∧
  decodeWord 0b1000000100100101#16 = .subReg 0x1#4 0x2#4 ∧
  decodeWord 0b1101001100100101#16 = .drw 0x3#4 0x2#4 0x5#4 ∧
  decodeWord 0b1110010110100001#16 = .sknp 0x5#4 ∧
  decodeWord 0b1111001001010101#16 = .storeRegs 0x2#4 ∧
  decodeWord 0b0101000100100001#16 = .dw 0x5121#16

/-- R65, R80: the fetched word has the byte at pc in bits 15:8 and the byte at pc+1 in bits 7:0; a byte
sequence shorter than a word holds no instruction (R88). -/
def Obligations.FetchIsBigEndian : Prop :=
  (∀ s : State, s.fetchWord.toNat = 256 * (s.load s.pc.toNat).toNat + (s.load (s.pc.toNat + 1)).toNat) ∧
  (∀ (hi lo : Byte) (rest : List Byte), ∃ i,
    decode (hi :: lo :: rest) = .ok (i, rest) ∧ (encode i).toNat = 256 * hi.toNat + lo.toNat) ∧
  (∀ b : Byte, decode [b] = .error .truncated) ∧ decode [] = .error .truncated

/-! ### Memory -/

/-- R69: a read returns the byte most recently written to the address, and every other byte is as it was. -/
def Obligations.ReadReturnsLastWrite : Prop :=
  ∀ (s : State) (a : Nat) (b : Byte), a < 4096 →
    (s.store a b).load a = b ∧ ∀ c, c ≠ a → (s.store a b).load c = s.load c

/-- R63: InitMem gives the font at 0x000 to 0x04F (glyph g at 5·g), the image from 0x200 on, and 0 elsewhere,
and leaves memory in canonical form. -/
def Obligations.InitMemContents : Prop :=
  ∀ (font : Font) (img : Bytes), img.length ≤ 3584 →
    (∀ (g : Fin 16) (j : Fin 5), Mem.read font (initMem font img) (5 * g + j) = font[g][j]) ∧
    (∀ k : Nat, ∀ h : k < img.length, Mem.read font (initMem font img) (0x200 + k) = img[k]) ∧
    (∀ a : Nat, (80 ≤ a ∧ a < 0x200) ∨ 0x200 + img.length ≤ a → Mem.read font (initMem font img) a = 0) ∧
    Memory.wf font (initMem font img)

/-! ### Construction, reset, program load -/

/-- R260, R45: the machine at construction, for every rate and every setting of the parameters. -/
def Obligations.ConstructionState : Prop :=
  ∀ (rate : Nat) (p : Params) (s : State), s = State.constructed rate p →
    s.img = [] ∧ s.run = .stopped ∧ s.ips = rate ∧ s.kq = [] ∧ s.params = p ∧
    (∀ r, s.reg r = 0) ∧ s.I = 0 ∧ s.pc.toNat = 0x200 ∧ s.stack = [] ∧ s.dt = 0 ∧ s.st = 0 ∧
    (∀ r c, Frame.pixel s.fb r c = false) ∧ (∀ k, s.keyDown k = false) ∧
    s.dirty = true ∧ s.awaitKey = none ∧ s.fault = none ∧
    (∀ (g : Fin 16) (j : Fin 5), s.load (5 * g + j) = p.font[g][j]) ∧ (∀ a, 80 ≤ a → s.load a = 0)

/-- R266: an accepted RESET rebuilds memory from the font and IMG, clears the registers, stack, timers,
framebuffer and keys, sets pc to 0x200, AWAIT and FAULT to none and DIRTY, and leaves RUN, IPS, KQ and
IMG. That the request answers OK is R240's result. -/
def Obligations.ResetRequestState : Prop :=
  ∀ (s : State) (rest : List Input), s.slotsLeft = 0 → s.inputs = .reset :: rest → s.run ≠ .running →
    s.img.length ≤ 3584 →
    ∃ t, step s = .next t ∧
      (∀ r, t.reg r = 0) ∧ t.I = 0 ∧ t.pc.toNat = 0x200 ∧ t.stack = [] ∧ t.dt = 0 ∧ t.st = 0 ∧
      (∀ r c, Frame.pixel t.fb r c = false) ∧ (∀ k, t.keyDown k = false) ∧
      t.awaitKey = none ∧ t.fault = none ∧ t.dirty = true ∧
      (∀ (g : Fin 16) (j : Fin 5), t.load (5 * g + j) = s.params.font[g][j]) ∧
      (∀ k : Nat, ∀ h : k < s.img.length, t.load (0x200 + k) = s.img[k]) ∧
      (∀ a : Nat, (80 ≤ a ∧ a < 0x200) ∨ 0x200 + s.img.length ≤ a → t.load a = 0) ∧
      t.inputs = rest ∧ t.out = s.out ++ [.result .ok] ∧
      (∀ p ∈ [Part.run, .rate, .queue, .image, .params, .tickLeft, .draws], Part.Same s t p)

/-- R261, R262: LOAD_PROGRAM accepts at most 3584 bytes (none included), writes them from 0x200 into a memory
built afresh, latches IMG and changes nothing else; a longer image is refused with SIZE_ERROR and leaves
the state unchanged. The events in and out are the interface's (R240). -/
def Obligations.LoadProgramRequest : Prop :=
  ∀ (s : State) (image : Bytes) (rest : List Input),
    s.slotsLeft = 0 → s.inputs = .loadProgram image :: rest → s.run ≠ .running →
    ∃ t, step s = .next t ∧ t.inputs = rest ∧
      (image.length ≤ 3584 →
        t.img = image ∧ t.out = s.out ++ [.result .ok] ∧
        (∀ (g : Fin 16) (j : Fin 5), t.load (5 * g + j) = s.params.font[g][j]) ∧
        (∀ k : Nat, ∀ h : k < image.length, t.load (0x200 + k) = image[k]) ∧
        (∀ a : Nat, (80 ≤ a ∧ a < 0x200) ∨ 0x200 + image.length ≤ a → t.load a = 0) ∧
        OnlyChanges [.memory, .image, .inputs, .outputs] s t) ∧
      (3584 < image.length →
        t.out = s.out ++ [.result .sizeError] ∧ OnlyChanges [.inputs, .outputs] s t)

/-- R267: for every program of at most 3584 bytes, load followed by reset places program byte k at address
0x200 + k and zeroes all registers, stack, timers and framebuffer. -/
def Obligations.LoadThenReset : Prop :=
  ∀ (s : State) (image : Bytes) (rest : List Input),
    s.slotsLeft = 0 → s.inputs = .loadProgram image :: .reset :: rest → s.run ≠ .running →
    image.length ≤ 3584 →
    ∃ t, Host.Core.run Sys2Proof.core 2 s = .next t ∧
      (∀ k : Nat, ∀ h : k < image.length, t.load (0x200 + k) = image[k]) ∧
      (∀ r, t.reg r = 0) ∧ t.I = 0 ∧ t.stack = [] ∧ t.dt = 0 ∧ t.st = 0 ∧
      (∀ r c, Frame.pixel t.fb r c = false) ∧ t.pc.toNat = 0x200

/-! ### The invariant -/

/-- The invariant holds of a constructed machine, for every rate and setting. -/
def Obligations.InvariantAtConstruction : Prop :=
  ∀ (rate : Nat) (p : Params), Inv (State.constructed rate p) ∧ Inv State.reset

/-- Every step keeps the invariant: memory stays in canonical form, IMG within 3584 bytes, the stack within
a set cap, and a tick in progress only while Running, whatever instruction runs or request is served. -/
def Obligations.StepKeepsInvariant : Prop :=
  ∀ s t : State, Inv s → step s = .next t → Inv t

/-- Every step answers a next state: nothing is refused and nothing stops the machine without a stated
effect; and no step changes the parameters. -/
def Obligations.StepAlwaysAnswers : Prop :=
  ∀ s : State, ∃ t, step s = .next t ∧ t.params = s.params

/-! ### A step and the instruction it runs -/

/-- A step runs the instruction decoded from the bytes at pc, on the state after KQ is drained: as a slot of
a running tick, as the first slot of a tick, and as a single step; around it stand the count of slots, the
end of the slot (`afterSlot`: timers and publish at the last slot) and the publish of a single step. That a
step is one slot, that a tick begins when no event waits, and that a step answers OK last are the model's
choices (notes/assumptions 8, 9, 11). -/
def Obligations.StepRunsDecodedInstruction : Prop :=
  ∀ (s : State) (i : Instr), s.awaitKey = none → s.pc.toNat ≤ 0xFFE →
    decode [s.load s.pc.toNat, s.load (s.pc.toNat + 1)] = .ok (i, []) →
    (∀ k, s.slotsLeft = k + 1 → (∀ e rest, s.inputs ≠ .key e :: rest) →
      step s = Answer.andThen (exec i { s.drain with slotsLeft := k }) afterSlot) ∧
    (s.slotsLeft = 0 → s.run = .running → s.inputs = [] →
      step s = Answer.andThen (exec i { s.drain with slotsLeft := max 1 (s.ips / 60) - 1 }) afterSlot) ∧
    (∀ rest, s.slotsLeft = 0 → s.run = .running → s.inputs = .tick :: rest →
      step s =
        Answer.andThen (exec i { s.drain with slotsLeft := max 1 (s.ips / 60) - 1, inputs := rest }) afterSlot) ∧
    (∀ rest, s.slotsLeft = 0 → s.run ≠ .running → s.fault = none → s.inputs = .step :: rest →
      step s = Answer.andThen (exec i { s.drain with inputs := rest }) afterStep)

/-- Where a fetch fails (R84): pc above 0xFFE raises FETCH_OUT_OF_RANGE before any byte is read; the drained
key events are all that changes besides the fault (R212). -/
def Obligations.FetchBeyondMemoryFaults : Prop :=
  ∀ s : State, s.awaitKey = none → 0xFFE < s.pc.toNat →
    ∃ t, slot s = .next t ∧ Raised .fetchOutOfRange .fetch s.drain t

/-- R37: a slot drains KQ, oldest first: afterwards KQ is empty, and each key is in the state its last queued
event gave it, or as it was when no event names it; nothing else changes. -/
def Obligations.DrainAppliesKeyEvents : Prop :=
  ∀ s : State,
    s.drain.kq = [] ∧ OnlyChanges [.keys, .queue] s s.drain ∧
    (∀ k : KeyIndex, (∀ e ∈ s.kq, e.key ≠ k) → s.drain.keyDown k = s.keyDown k) ∧
    (∀ (before after : List KeyEvent) (e : KeyEvent), s.kq = before ++ e :: after →
      (∀ f ∈ after, f.key ≠ e.key) → (s.drain.keyDown e.key = true ↔ e.kind = .down))

/-- R186: while AWAIT = some x a slot fetches nothing. Under `edge` the first key-down drained ends the wait,
under `level` the least key held after the drain does: its index goes to Vx, AWAIT to none, pc on by 2;
otherwise the wait goes on and only the drain is seen. -/
def Obligations.KeyWaitSlotServesWait : Prop :=
  ∀ (s : State) (x : Reg), s.awaitKey = some x →
    ∃ t, slot s = .next t ∧
      (∀ k : KeyIndex,
        (s.params.keyWait = .edge ∧
          (∃ before after, s.kq = before ++ ⟨k, .down⟩ :: after ∧ ∀ e ∈ before, e.kind = .up)) ∨
        (s.params.keyWait = .level ∧ s.drain.keyDown k = true ∧
          ∀ j : KeyIndex, j.toNat < k.toNat → s.drain.keyDown j = false) →
        (t.reg x).toNat = k.toNat ∧ t.awaitKey = none ∧ PcMovedBy 2 s t ∧
          RegsSameBut [x] s t ∧ OnlyChanges [.regs, .wait, .pc] s.drain t) ∧
      ((s.params.keyWait = .edge ∧ ∀ e ∈ s.kq, e.kind = .up) ∨
        (s.params.keyWait = .level ∧ ∀ j : KeyIndex, s.drain.keyDown j = false) →
        t.awaitKey = some x ∧ OnlyChanges [.keys, .queue] s t ∧ OnlyChanges [] s.drain t)

/-! ### Faults -/

/-- R211: the conditions of the fault table, and no other condition faults. When an instruction's condition
holds, it answers the state before it plus the fault, so every fault is precise (R212): nothing else is
written and pc still addresses it; when not, FAULT, RUN and the tick in progress are as they were; and a
fetch faults exactly when pc is above 0xFFE. The causes have the codes 1 to 4. -/
def Obligations.FaultsExactlyByTable : Prop :=
  (∀ (i : Instr) (s : State) (c : FaultCause) (f : FaultInfo), faultCondition i s = some (c, f) →
    ∃ t, exec i s = .next t ∧ Raised c f s t) ∧
  (∀ (i : Instr) (s : State), faultCondition i s = none →
    ∃ t, exec i s = .next t ∧ ∀ p ∈ [Part.latch, .run, .tickLeft], Part.Same s t p) ∧
  (∀ s : State, 0xFFE < s.pc.toNat → ∃ t, fetchExec s = .next t ∧ Raised .fetchOutOfRange .fetch s t) ∧
  (∀ s : State, s.pc.toNat ≤ 0xFFE → fetchExec s = exec (decodeWord s.fetchWord) s) ∧
  [FaultCause.fetchOutOfRange, .dataOutOfRange, .keyIndexOutOfRange, .stackOverflow].map FaultCause.code =
    [1, 2, 3, 4]

/-- R212: a fault in a slot of a tick, its first, its last or its only one included, abandons the rest of it: no
further slot, no timer decrement, no beep, no publish; in a single step it suppresses the publish. (What a
step is, when a tick begins, and that a single step still answers OK are the model's choices:
notes/assumptions 8, 9, 11.) -/
def Obligations.FaultAbandonsTickAndPublish : Prop :=
  (∀ s u t : State, SlotDue s u → slot u = .next t → t.fault ≠ none →
    ∃ v, step s = .next v ∧ v.slotsLeft = 0 ∧ OnlyChanges [.tickLeft] t v) ∧
  (∀ (rest : List Input) (s t : State), s.slotsLeft = 0 → s.inputs = .step :: rest → s.run ≠ .running →
    s.fault = none → slot { s with inputs := rest } = .next t → t.fault ≠ none →
    ∃ u, step s = .next u ∧ u.out = t.out ++ [.result .ok] ∧ OnlyChanges [.outputs] t u)

/-- R212, R217: FAULT stays set until a reset, or until a snapshot is loaded, each taken between ticks while RUN
is not Running; no other step clears it. -/
def Obligations.FaultStaysLatched : Prop :=
  ∀ s t : State, faultedEnd s → step s = .next t → t.fault = none →
    s.slotsLeft = 0 ∧ s.run ≠ .running ∧
      ∃ rest, s.inputs = .reset :: rest ∨ ∃ blob, s.inputs = .loadSnapshot blob :: rest

/-- R221: a Stopped machine sees no tick: with no event waiting nothing changes, and a TICK changes nothing. -/
def Obligations.StoppedMachineSeesNoTick : Prop :=
  (∀ s : State, s.run = .stopped → s.slotsLeft = 0 → s.inputs = [] → step s = .next s) ∧
  (∀ (s : State) (rest : List Input), s.run = .stopped → s.slotsLeft = 0 → s.inputs = .tick :: rest →
    ∃ t, step s = .next t ∧ t.inputs = rest ∧ OnlyChanges [.inputs] s t)

/-! ### Control flow (40_control_flow.md) -/

/-- R110: RET pops the exact return address; on an empty stack pc falls back to 0x200; nothing is emitted. -/
def Obligations.ReturnPopsExactly : Prop :=
  ∀ s : State,
    (s.stack = [] → ∃ t, exec .ret s = .next t ∧ t.pc.toNat = 0x200 ∧ OnlyChanges [.pc] s t) ∧
    (∀ p rest, s.stack = p :: rest →
      ∃ t, exec .ret s = .next t ∧ t.pc = p ∧ t.stack = rest ∧ OnlyChanges [.pc, .stack] s t)

/-- R111, R117: JP sets pc to nnn, odd ones and 0xFFF too; JP V0 sets pc to the 16-bit sum nnn + V0, not
reduced mod 4096; neither changes anything else. -/
def Obligations.JumpsSetPc : Prop :=
  ∀ (nnn : Addr) (s : State),
    (∃ t, exec (.jp nnn) s = .next t ∧ t.pc.toNat = nnn.toNat ∧ OnlyChanges [.pc] s t) ∧
    (∃ t, exec (.jpV0 nnn) s = .next t ∧ t.pc.toNat = nnn.toNat + (s.reg V0).toNat ∧ OnlyChanges [.pc] s t)

/-- R112: CALL pushes pc + 2 and jumps; on a full capped stack it faults STACK_OVERFLOW with the depth. -/
def Obligations.CallPushesReturnAddress : Prop :=
  ∀ (nnn : Addr) (s : State),
    (s.params.stackCap ≠ some s.stack.length →
      ∃ t, exec (.call nnn) s = .next t ∧ t.pc.toNat = nnn.toNat ∧
        (∃ p : Pc, t.stack = p :: s.stack ∧ (s.pc.toNat + 2 < 0x10000 → p.toNat = s.pc.toNat + 2)) ∧
        OnlyChanges [.pc, .stack] s t) ∧
    (s.params.stackCap = some s.stack.length →
      ∃ (t : State) (w : Word), exec (.call nnn) s = .next t ∧ w.toNat = 0x2000 + nnn.toNat ∧
        Raised .stackOverflow (.stack w s.stack.length) s t)

/-- R113, R114, R115, R116: the skips on registers move pc by 4 when the condition holds, by 2 otherwise; with
x = y the register forms always and never skip. -/
def Obligations.SkipsOnRegisters : Prop :=
  ∀ (x y : Reg) (kk : Byte) (s : State),
    (∃ t, exec (.seImm x kk) s = .next t ∧
      PcMovedBy (if (s.reg x).toNat = kk.toNat then 4 else 2) s t ∧ OnlyChanges [.pc] s t) ∧
    (∃ t, exec (.sneImm x kk) s = .next t ∧
      PcMovedBy (if (s.reg x).toNat = kk.toNat then 2 else 4) s t ∧ OnlyChanges [.pc] s t) ∧
    (∃ t, exec (.seReg x y) s = .next t ∧
      PcMovedBy (if (s.reg x).toNat = (s.reg y).toNat then 4 else 2) s t ∧ OnlyChanges [.pc] s t) ∧
    (∃ t, exec (.sneReg x y) s = .next t ∧
      PcMovedBy (if (s.reg x).toNat = (s.reg y).toNat then 2 else 4) s t ∧ OnlyChanges [.pc] s t)

/-! ### Loads and the byte ALU (41_alu.md) -/

/-- R131, R133, R132: the loads write the byte to Vx; the immediate sum wraps mod 256; none changes another
register, so VF is no carry of 7xkk. -/
def Obligations.LoadsAndImmediateAdd : Prop :=
  ∀ (x y : Reg) (kk : Byte) (s : State),
    (∃ t, exec (.ldImm x kk) s = .next t ∧ t.reg x = kk ∧ PcMovedBy 2 s t ∧
      RegsSameBut [x] s t ∧ OnlyChanges [.regs, .pc] s t) ∧
    (∃ t, exec (.ldReg x y) s = .next t ∧ t.reg x = s.reg y ∧ PcMovedBy 2 s t ∧
      RegsSameBut [x] s t ∧ OnlyChanges [.regs, .pc] s t) ∧
    (∃ t, exec (.addImm x kk) s = .next t ∧ (t.reg x).toNat = ((s.reg x).toNat + kk.toNat) % 256 ∧
      PcMovedBy 2 s t ∧ RegsSameBut [x] s t ∧ OnlyChanges [.regs, .pc] s t)

/-- R134, R135, R136: each bit of Vx is the or, the and, the exclusive or of the operands' bits; VF is
unchanged unless x = F. -/
def Obligations.LogicalOperations : Prop :=
  ∀ (x y : Reg) (s : State),
    (∃ t, exec (.orReg x y) s = .next t ∧
      (∀ b < 8, (t.reg x).toNat.testBit b = ((s.reg x).toNat.testBit b || (s.reg y).toNat.testBit b)) ∧
      PcMovedBy 2 s t ∧ RegsSameBut [x] s t ∧ OnlyChanges [.regs, .pc] s t) ∧
    (∃ t, exec (.andReg x y) s = .next t ∧
      (∀ b < 8, (t.reg x).toNat.testBit b = ((s.reg x).toNat.testBit b && (s.reg y).toNat.testBit b)) ∧
      PcMovedBy 2 s t ∧ RegsSameBut [x] s t ∧ OnlyChanges [.regs, .pc] s t) ∧
    (∃ t, exec (.xorReg x y) s = .next t ∧
      (∀ b < 8, (t.reg x).toNat.testBit b = ((s.reg x).toNat.testBit b ^^ (s.reg y).toNat.testBit b)) ∧
      PcMovedBy 2 s t ∧ RegsSameBut [x] s t ∧ OnlyChanges [.regs, .pc] s t)

/-- R137: the sum mod 256 goes to Vx and the carry to VF, VF last: with x = F only the carry is left. -/
def Obligations.AddSetsCarry : Prop :=
  ∀ (x y : Reg) (s : State), ∃ t, exec (.addReg x y) s = .next t ∧
    (t.reg VF).toNat = (if 255 < (s.reg x).toNat + (s.reg y).toNat then 1 else 0) ∧
    (x ≠ VF → (t.reg x).toNat = ((s.reg x).toNat + (s.reg y).toNat) % 256) ∧
    PcMovedBy 2 s t ∧ RegsSameBut [x, VF] s t ∧ OnlyChanges [.regs, .pc] s t

/-- R138: SUB under both settings of P_VF_ORDER, every corner case of the rule included. -/
def Obligations.SubtractAndFlag : Prop :=
  ∀ (x y : Reg) (s : State), ∃ t, exec (.subReg x y) s = .next t ∧
    PcMovedBy 2 s t ∧ RegsSameBut [x, VF] s t ∧ OnlyChanges [.regs, .pc] s t ∧
    ∀ a b f : Nat, a = (s.reg x).toNat → b = (s.reg y).toNat → f = (if b < a then 1 else 0) →
      (x ≠ VF → y ≠ VF → (t.reg x).toNat = (a + 256 - b) % 256 ∧ (t.reg VF).toNat = f) ∧
      (s.params.vfOrder = .table → x = VF → y ≠ VF → (t.reg VF).toNat = (f + 256 - b) % 256) ∧
      (s.params.vfOrder = .table → x ≠ VF → y = VF →
        (t.reg x).toNat = (a + 256 - f) % 256 ∧ (t.reg VF).toNat = f) ∧
      (x = VF → y = VF → (t.reg VF).toNat = 0) ∧
      (s.params.vfOrder = .flagLast →
        (t.reg VF).toNat = f ∧ (x ≠ VF → (t.reg x).toNat = (a + 256 - b) % 256))

/-- R140: SUBN under both settings of P_VF_ORDER, every corner case of the rule included. -/
def Obligations.ReverseSubtractAndFlag : Prop :=
  ∀ (x y : Reg) (s : State), ∃ t, exec (.subn x y) s = .next t ∧
    PcMovedBy 2 s t ∧ RegsSameBut [x, VF] s t ∧ OnlyChanges [.regs, .pc] s t ∧
    ∀ a b f : Nat, a = (s.reg x).toNat → b = (s.reg y).toNat → f = (if a < b then 1 else 0) →
      (x ≠ VF → y ≠ VF → (t.reg x).toNat = (b + 256 - a) % 256 ∧ (t.reg VF).toNat = f) ∧
      (s.params.vfOrder = .table → x = VF → y ≠ VF → (t.reg VF).toNat = (b + 256 - f) % 256) ∧
      (s.params.vfOrder = .table → x ≠ VF → y = VF →
        (t.reg x).toNat = (f + 256 - a) % 256 ∧ (t.reg VF).toNat = f) ∧
      (x = VF → y = VF → (t.reg VF).toNat = 0) ∧
      (s.params.vfOrder = .flagLast →
        (t.reg VF).toNat = f ∧ (x ≠ VF → (t.reg x).toNat = (b + 256 - a) % 256))

/-- R139, R141: SHR halves Vx and puts its old bit 0 in VF, SHL doubles Vx mod 256 and puts its old bit 7 in VF;
the y field has no effect; with x = F the setting of P_VF_ORDER decides what VF ends as. -/
def Obligations.ShiftsByOne : Prop :=
  ∀ (x y : Reg) (s : State),
    (∃ t, exec (.shr x y) s = .next t ∧
      (x ≠ VF → (t.reg x).toNat = (s.reg x).toNat / 2 ∧ (t.reg VF).toNat = (s.reg x).toNat % 2) ∧
      (x = VF → s.params.vfOrder = .table → (t.reg VF).toNat = 0) ∧
      (x = VF → s.params.vfOrder = .flagLast → (t.reg VF).toNat = (s.reg VF).toNat % 2) ∧
      (∀ z, exec (.shr x z) s = .next t) ∧
      PcMovedBy 2 s t ∧ RegsSameBut [x, VF] s t ∧ OnlyChanges [.regs, .pc] s t) ∧
    (∃ t, exec (.shl x y) s = .next t ∧
      (x ≠ VF → (t.reg x).toNat = 2 * (s.reg x).toNat % 256 ∧ (t.reg VF).toNat = (s.reg x).toNat / 128) ∧
      (x = VF → s.params.vfOrder = .table → (t.reg VF).toNat = 2 * ((s.reg VF).toNat / 128)) ∧
      (x = VF → s.params.vfOrder = .flagLast → (t.reg VF).toNat = (s.reg VF).toNat / 128) ∧
      (∀ z, exec (.shl x z) s = .next t) ∧
      PcMovedBy 2 s t ∧ RegsSameBut [x, VF] s t ∧ OnlyChanges [.regs, .pc] s t)

/-- R142: Vx is the drawn byte under the mask kk, bit by bit, and the next draw is a fresh one. The byte is
free (notes/assumptions 4): this holds whatever the draws are, and a clear bit of kk is clear in Vx. -/
def Obligations.RandomByteUnderMask : Prop :=
  ∀ (x : Reg) (kk : Byte) (s : State), ∃ t, exec (.rnd x kk) s = .next t ∧
    (∀ b < 8, (t.reg x).toNat.testBit b =
      ((Config.randomByte s.draws).toNat.testBit b && kk.toNat.testBit b)) ∧
    t.draws = s.draws + 1 ∧
    PcMovedBy 2 s t ∧ RegsSameBut [x] s t ∧ OnlyChanges [.regs, .pc, .draws] s t

/-! ### The address register and memory (42_index_memory.md) -/

/-- R150, R151, R152: I is loaded with nnn, added to mod 4096 with no flag, pointed at a glyph by the low
nibble of Vx. -/
def Obligations.AddressRegisterWrites : Prop :=
  ∀ (x : Reg) (nnn : Addr) (s : State),
    (∃ t, exec (.ldI nnn) s = .next t ∧ t.I = nnn ∧ PcMovedBy 2 s t ∧ OnlyChanges [.index, .pc] s t) ∧
    (∃ t, exec (.addI x) s = .next t ∧ t.I.toNat = (s.I.toNat + (s.reg x).toNat) % 4096 ∧
      PcMovedBy 2 s t ∧ OnlyChanges [.index, .pc] s t) ∧
    (∃ t, exec (.ldF x) s = .next t ∧ t.I.toNat = (s.reg x).toNat % 16 * 5 ∧
      PcMovedBy 2 s t ∧ OnlyChanges [.index, .pc] s t)

/-- R153: the decimal digits of Vx at I, I+1, I+2, no other byte changed, I unchanged; above 0xFFD it faults
DATA_OUT_OF_RANGE before any write. -/
def Obligations.StoreBcd : Prop :=
  ∀ (x : Reg) (s : State),
    (s.I.toNat ≤ 0xFFD →
      ∃ t, exec (.ldB x) s = .next t ∧
        (t.load (s.dataAddr 0)).toNat = (s.reg x).toNat / 100 ∧
        (t.load (s.dataAddr 1)).toNat = (s.reg x).toNat / 10 % 10 ∧
        (t.load (s.dataAddr 2)).toNat = (s.reg x).toNat % 10 ∧
        MemorySameOutside (s.dataAddr 0) 3 s t ∧ PcMovedBy 2 s t ∧ OnlyChanges [.memory, .pc] s t) ∧
    (0xFFD < s.I.toNat →
      ∃ (t : State) (w : Word), exec (.ldB x) s = .next t ∧ w.toNat = 0xF033 + 256 * x.toNat ∧
        Raised .dataOutOfRange (.data w s.I.toNat (s.I.toNat + 2)) s t)

/-- R154: V0 to Vx at I to I+x, no other byte changed, I unchanged; past 0xFFF it faults before any write. -/
def Obligations.StoreRegisters : Prop :=
  ∀ (x : Reg) (s : State),
    (s.I.toNat + x.toNat ≤ 0xFFF →
      ∃ t, exec (.storeRegs x) s = .next t ∧
        (∀ j : Reg, j.toNat ≤ x.toNat → t.load (s.dataAddr j.toNat) = s.reg j) ∧
        MemorySameOutside (s.dataAddr 0) (x.toNat + 1) s t ∧ PcMovedBy 2 s t ∧
        OnlyChanges [.memory, .pc] s t) ∧
    (0xFFF < s.I.toNat + x.toNat →
      ∃ (t : State) (w : Word), exec (.storeRegs x) s = .next t ∧ w.toNat = 0xF055 + 256 * x.toNat ∧
        Raised .dataOutOfRange (.data w s.I.toNat (s.I.toNat + x.toNat)) s t)

/-- R155: V0 to Vx from I to I+x, the registers above Vx, I and memory unchanged; past 0xFFF it faults before
any register write. -/
def Obligations.LoadRegisters : Prop :=
  ∀ (x : Reg) (s : State),
    (s.I.toNat + x.toNat ≤ 0xFFF →
      ∃ t, exec (.loadRegs x) s = .next t ∧
        (∀ j : Reg, j.toNat ≤ x.toNat → t.reg j = s.load (s.I.toNat + j.toNat)) ∧
        (∀ j : Reg, x.toNat < j.toNat → t.reg j = s.reg j) ∧
        PcMovedBy 2 s t ∧ OnlyChanges [.regs, .pc] s t) ∧
    (0xFFF < s.I.toNat + x.toNat →
      ∃ (t : State) (w : Word), exec (.loadRegs x) s = .next t ∧ w.toNat = 0xF065 + 256 * x.toNat ∧
        Raised .dataOutOfRange (.data w s.I.toNat (s.I.toNat + x.toNat)) s t)

/-! ### Framebuffer (43_display.md) -/

/-- R170: CLS clears every pixel and sets DIRTY; VF is unchanged. -/
def Obligations.ClearFramebuffer : Prop :=
  ∀ s : State, ∃ t, exec .cls s = .next t ∧ (∀ r c, Frame.pixel t.fb r c = false) ∧ t.dirty = true ∧
    PcMovedBy 2 s t ∧ OnlyChanges [.pixels, .dirty, .pc] s t

/-- R171: the draw as a whole. Each pixel of the grid is flipped exactly when a set sprite bit lands on it, the
start position wrapped mod 64 and mod 32 and the rest clipped; VF is 1 exactly when a set bit lands on a
set pixel of the grid, else 0; DIRTY is set; n = 0 draws nothing. Past 0xFFF it faults before VF or any
pixel changes. -/
def Obligations.DrawXorsClippedSprite : Prop :=
  ∀ (x y n : BitVec 4) (s : State),
    (n = 0 ∨ s.I.toNat + n.toNat - 1 ≤ 0xFFF →
      ∃ t, exec (.drw x y n) s = .next t ∧
        (∀ r c, r < 32 → c < 64 →
          Frame.pixel t.fb r c = (Frame.pixel s.fb r c ^^
            spriteBit s n.toNat ((s.reg x).toNat % 64) ((s.reg y).toNat % 32) r c)) ∧
        ((∃ r c, r < 32 ∧ c < 64 ∧ Frame.pixel s.fb r c = true ∧
            spriteBit s n.toNat ((s.reg x).toNat % 64) ((s.reg y).toNat % 32) r c = true) →
          t.reg VF = 1) ∧
        ((∀ r c, r < 32 → c < 64 → Frame.pixel s.fb r c = true →
            spriteBit s n.toNat ((s.reg x).toNat % 64) ((s.reg y).toNat % 32) r c = false) →
          t.reg VF = 0) ∧
        t.dirty = true ∧ PcMovedBy 2 s t ∧ RegsSameBut [VF] s t ∧
        OnlyChanges [.regs, .pixels, .dirty, .pc] s t) ∧
    (n ≠ 0 → 0xFFF < s.I.toNat + n.toNat - 1 →
      ∃ (t : State) (w : Word), exec (.drw x y n) s = .next t ∧
        w.toNat = 0xD000 + 256 * x.toNat + 16 * y.toNat + n.toNat ∧
        Raised .dataOutOfRange (.data w s.I.toNat (s.I.toNat + n.toNat - 1)) s t)

/-- Drawing the same sprite twice at the same place restores the framebuffer, and the second draw sets VF when
a visible set bit lands on a pixel that was clear before the first (R171's corner case, which holds for
such a pixel: notes/assumptions 20); VF is no coordinate and the sprite's bytes are in range. -/
def Obligations.DrawTwiceRestores : Prop :=
  ∀ (x y n : BitVec 4) (s t u : State), x ≠ VF → y ≠ VF → n = 0 ∨ s.I.toNat + n.toNat - 1 ≤ 0xFFF →
    exec (.drw x y n) s = .next t → exec (.drw x y n) t = .next u →
    u.fb = s.fb ∧
    ((∃ r c, r < 32 ∧ c < 64 ∧
        spriteBit s n.toNat ((s.reg x).toNat % 64) ((s.reg y).toNat % 32) r c = true ∧
        Frame.pixel s.fb r c = false) → u.reg VF = 1)

/-! ### Keys and timers (44_input_timers.md) -/

/-- R180, R181: the key skips, on the key whose index is Vx; above 0xF they fault KEY_INDEX_OUT_OF_RANGE. -/
def Obligations.KeySkips : Prop :=
  ∀ (x : Reg) (s : State),
    (∀ b : Bool, s.keys[(s.reg x).toNat]? = some b →
      (∃ t, exec (.skp x) s = .next t ∧ PcMovedBy (if b then 4 else 2) s t ∧ OnlyChanges [.pc] s t) ∧
      (∃ t, exec (.sknp x) s = .next t ∧ PcMovedBy (if b then 2 else 4) s t ∧ OnlyChanges [.pc] s t)) ∧
    (0xF < (s.reg x).toNat →
      (∃ (t : State) (w : Word), exec (.skp x) s = .next t ∧ w.toNat = 0xE09E + 256 * x.toNat ∧
        Raised .keyIndexOutOfRange (.key w (s.reg x)) s t) ∧
      (∃ (t : State) (w : Word), exec (.sknp x) s = .next t ∧ w.toNat = 0xE0A1 + 256 * x.toNat ∧
        Raised .keyIndexOutOfRange (.key w (s.reg x)) s t))

/-- R183: Fx0A waits with pc unchanged, unless `level` is set and a key is held: then the least held key goes
to Vx and pc moves on. -/
def Obligations.KeyWaitBegins : Prop :=
  ∀ (x : Reg) (s : State),
    (s.params.keyWait = .edge ∨ (∀ k : KeyIndex, s.keyDown k = false) →
      ∃ t, exec (.ldVxK x) s = .next t ∧ t.awaitKey = some x ∧ OnlyChanges [.wait] s t) ∧
    (∀ k : KeyIndex, s.params.keyWait = .level → s.keyDown k = true →
      (∀ j : KeyIndex, j.toNat < k.toNat → s.keyDown j = false) →
      ∃ t, exec (.ldVxK x) s = .next t ∧ (t.reg x).toNat = k.toNat ∧ PcMovedBy 2 s t ∧
        RegsSameBut [x] s t ∧ OnlyChanges [.regs, .pc] s t)

/-- R182, R184, R185: the timer moves; none emits a beep. -/
def Obligations.TimerMoves : Prop :=
  ∀ (x : Reg) (s : State),
    (∃ t, exec (.ldVxDt x) s = .next t ∧ t.reg x = s.dt ∧ PcMovedBy 2 s t ∧
      RegsSameBut [x] s t ∧ OnlyChanges [.regs, .pc] s t) ∧
    (∃ t, exec (.ldDtVx x) s = .next t ∧ t.dt = s.reg x ∧ PcMovedBy 2 s t ∧ OnlyChanges [.dt, .pc] s t) ∧
    (∃ t, exec (.ldStVx x) s = .next t ∧ t.st = s.reg x ∧ PcMovedBy 2 s t ∧ OnlyChanges [.st, .pc] s t)

/-! ### The default row (45_unrecognized.md) -/

/-- R200: an unrecognized word emits Diag(pc, w) and advances pc by 2, with no other change, when fetched as
much as when executed. -/
def Obligations.UnrecognizedWordRunsOn : Prop :=
  (∀ (w : Word) (s : State), ∃ t, exec (.dw w) s = .next t ∧ t.out = s.out ++ [.diag s.pc w] ∧
    PcMovedBy 2 s t ∧ OnlyChanges [.outputs, .pc] s t) ∧
  (∀ s : State, s.pc.toNat ≤ 0xFFE → (∀ r ∈ opRows, r.selects s.fetchWord = false) →
    ∃ t, fetchExec s = .next t ∧ t.out = s.out ++ [.diag s.pc s.fetchWord] ∧
      t.pc.toNat = s.pc.toNat + 2 ∧ OnlyChanges [.outputs, .pc] s t)

/-! ### Rules about all instructions -/

/-- R22: which instructions write general registers, and no other register is written, in any outcome. -/
def Obligations.OnlyNamedRegistersWritten : Prop :=
  ∀ (i : Instr) (s t : State), exec i s = .next t → RegsSameBut (regsWritten i) s t

/-- Who writes what else: I only Annn, Fx1E, Fx29 (R24); the stack only 00EE, 2nnn (R27); DT only Fx15 and
ST only Fx18 (R28); pixels only 00E0, Dxyn (R30); memory only Fx33, Fx55 (R60); AWAIT only Fx0A (R32);
and no instruction changes K, KQ, IPS, IMG (R31, R34, R37, R41). -/
def Obligations.OnlyNamedPartsWritten : Prop :=
  ∀ (i : Instr) (s t : State), exec i s = .next t →
    (i.row ∉ [⟨0xF000, 0xA000⟩, ⟨0xF0FF, 0xF01E⟩, ⟨0xF0FF, 0xF029⟩] → t.I = s.I) ∧
    (i.row ∉ [⟨0xFFFF, 0x00EE⟩, ⟨0xF000, 0x2000⟩] → t.stack = s.stack) ∧
    (i.row ≠ ⟨0xF0FF, 0xF015⟩ → t.dt = s.dt) ∧
    (i.row ≠ ⟨0xF0FF, 0xF018⟩ → t.st = s.st) ∧
    (i.row ∉ [⟨0xFFFF, 0x00E0⟩, ⟨0xF000, 0xD000⟩] → t.fb = s.fb ∧ t.dirty = s.dirty) ∧
    (i.row ∉ [⟨0xF0FF, 0xF033⟩, ⟨0xF0FF, 0xF055⟩] → ∀ a, t.load a = s.load a) ∧
    (i.row ≠ ⟨0xF0FF, 0xF00A⟩ → t.awaitKey = s.awaitKey) ∧
    (∀ p ∈ [Part.keys, .queue, .rate, .image, .params, .inputs], Part.Same s t p)

/-- R26: every instruction that completes and is no jump, call, return, skip or key wait advances pc by
exactly 2. -/
def Obligations.PlainInstructionsAdvanceByTwo : Prop :=
  ∀ (i : Instr) (s t : State), exec i s = .next t → faultCondition i s = none →
    i.row ∉ [⟨0xFFFF, 0x00EE⟩, ⟨0xF000, 0x1000⟩, ⟨0xF000, 0x2000⟩, ⟨0xF000, 0xB000⟩,
      ⟨0xF000, 0x3000⟩, ⟨0xF000, 0x4000⟩, ⟨0xF00F, 0x5000⟩, ⟨0xF00F, 0x9000⟩,
      ⟨0xF0FF, 0xE09E⟩, ⟨0xF0FF, 0xE0A1⟩, ⟨0xF0FF, 0xF00A⟩] →
    PcMovedBy 2 s t

/-- R111, R253: a machine at its successful end stays there: each further slot of a tick, the first of each tick
included, leaves it parked at the same pc, with registers, stack, memory and pixels as they were. (What a
step is and when a tick begins are the model's choices: notes/assumptions 8, 9.) -/
def Obligations.ParkedMachineStaysParked : Prop :=
  ∀ s u : State, parked s → s.run = .running → SlotDue s u →
    ∃ t, step s = .next t ∧ parked t ∧
      ∀ p ∈ [Part.pc, .regs, .index, .stack, .memory, .pixels, .run], Part.Same s t p

/-! ### Ticks and run control (60_exceptions.md) -/

/-- R224: each timer is decremented by one and stops at zero; a beep is emitted exactly when ST goes from 2
to 1; nothing else changes. -/
def Obligations.TimerStepCountsDown : Prop :=
  ∀ s : State, s.timerStep.dt.toNat = s.dt.toNat - 1 ∧ s.timerStep.st.toNat = s.st.toNat - 1 ∧
    s.timerStep.out = s.out ++ (if s.st.toNat = 2 then [.beep] else []) ∧
    OnlyChanges [.dt, .st, .outputs] s s.timerStep

/-- R222, R224, R226: after the last slot of a running tick, its only one included (CPT = 1), the timers step,
then the frame is sent if and only if DIRTY is set, and DIRTY is clear afterwards. (That this belongs to the
step of the last slot, and when a tick begins, are the model's choices: notes/assumptions 8, 9.) -/
def Obligations.LastSlotEndsTick : Prop :=
  ∀ s u t : State, s.run = .running → SlotDue s u → u.slotsLeft = 0 → slot u = .next t → t.fault = none →
    ∃ v, step s = .next v ∧ v.dt.toNat = t.dt.toNat - 1 ∧ v.st.toNat = t.st.toNat - 1 ∧
      v.out = t.out ++ (if t.st.toNat = 2 then [.beep] else []) ++ (if t.dirty then [.frame t.fb] else []) ∧
      v.dirty = false ∧ OnlyChanges [.dt, .st, .outputs, .dirty] t v

/-- R227: a tick while Paused, with a TICK event waiting or none, runs no slot; it steps the timers when
P_PAUSED_TIMERS is set, and publishes if DIRTY. (That a step with no event waiting is a tick, and that a paused
tick is one step, are the model's choices: notes/assumptions 9, 8.) -/
def Obligations.PausedTickRunsNoSlot : Prop :=
  ∀ s : State, s.run = .paused → s.slotsLeft = 0 → (s.inputs = [] ∨ ∃ rest, s.inputs = .tick :: rest) →
    ∃ t, step s = .next t ∧ t.inputs = s.inputs.tail ∧ t.dirty = false ∧
      OnlyChanges [.dt, .st, .outputs, .dirty, .inputs] s t ∧
      (s.params.pausedTimers = true →
        t.dt.toNat = s.dt.toNat - 1 ∧ t.st.toNat = s.st.toNat - 1 ∧
        t.out = s.out ++ (if s.st.toNat = 2 then [.beep] else []) ++ (if s.dirty then [.frame s.fb] else [])) ∧
      (s.params.pausedTimers = false →
        t.dt = s.dt ∧ t.st = s.st ∧ t.out = s.out ++ (if s.dirty then [.frame s.fb] else []))

/-- R222: a tick while Running runs max(1, IPS div 60) slots, one a step: as long as no fault is latched, after
k steps exactly CPT - k slots are left, and after CPT steps the tick is over. No host event
waits. (That a step is one slot, and that a tick begins when nothing waits, are the model's choices:
notes/assumptions 8, 9.) -/
def Obligations.RunningTickRunsCptSlots : Prop :=
  ∀ (s t : State) (k : Nat), s.run = .running → s.slotsLeft = 0 → s.inputs = [] → s.fault = none →
    0 < k → k ≤ max 1 (s.ips / 60) → Host.Core.run Sys2Proof.core k s = .next t → t.fault = none →
    t.slotsLeft = max 1 (s.ips / 60) - k ∧ t.run = .running ∧ t.ips = s.ips

/-- R230 (the rows START, STOP, TOGGLE_PAUSE, SET_RATE, KEY): when each is accepted and its effect. A
KEY event is posted at any moment, inside a tick too (R231). That each is answered by one OK, and that a key
event at the head of the events is posted before the next slot, are the model's choices (notes/assumptions
11, 18). -/
def Obligations.RunControlRequests : Prop :=
  (∀ (s : State) (r : Input) (rest : List Input), s.slotsLeft = 0 → s.inputs = r :: rest →
    (r = .start → s.run = .stopped → s.fault = none → ∃ t, step s = .next t ∧ t.run = .running ∧
      t.inputs = rest ∧ t.out = s.out ++ [.result .ok] ∧ OnlyChanges [.run, .inputs, .outputs] s t) ∧
    (r = .stop → s.run ≠ .stopped → ∃ t, step s = .next t ∧ t.run = .stopped ∧
      t.inputs = rest ∧ t.out = s.out ++ [.result .ok] ∧ OnlyChanges [.run, .inputs, .outputs] s t) ∧
    (r = .togglePause → s.run ≠ .stopped → ∃ t, step s = .next t ∧
      t.run = (if s.run = .running then .paused else .running) ∧
      t.inputs = rest ∧ t.out = s.out ++ [.result .ok] ∧ OnlyChanges [.run, .inputs, .outputs] s t) ∧
    (∀ v, r = .setRate v → ∃ t, step s = .next t ∧ t.ips = v ∧
      t.inputs = rest ∧ t.out = s.out ++ [.result .ok] ∧ OnlyChanges [.rate, .inputs, .outputs] s t)) ∧
  (∀ (s : State) (e : KeyEvent) (rest : List Input), s.inputs = .key e :: rest →
    ∃ t, step s = .next t ∧ t.kq = s.kq ++ [e] ∧
      t.inputs = rest ∧ t.out = s.out ++ [.result .ok] ∧ OnlyChanges [.queue, .inputs, .outputs] s t)

/-- R214, R230: a request made where it is not accepted answers USAGE_ERROR and changes nothing: START unless
Stopped without a latched fault; STOP and TOGGLE_PAUSE while Stopped; STEP while Running or faulted; SAVE,
LOAD_SNAPSHOT, LOAD_PROGRAM and RESET while Running. (That USAGE_ERROR is told for an image too long or a blob
malformed as well is the model's reading: notes/assumptions 22.) -/
def Obligations.RefusedRequestsChangeNothing : Prop :=
  ∀ (s : State) (r : Input) (rest : List Input), s.slotsLeft = 0 → s.inputs = r :: rest →
    (r = .start ∧ (s.run ≠ .stopped ∨ s.fault ≠ none)) ∨
    (r = .stop ∧ s.run = .stopped) ∨ (r = .togglePause ∧ s.run = .stopped) ∨
    (r = .step ∧ (s.run = .running ∨ s.fault ≠ none)) ∨
    (s.run = .running ∧
      (r = .save ∨ r = .reset ∨ (∃ b, r = .loadSnapshot b) ∨ (∃ p, r = .loadProgram p))) →
    ∃ t, step s = .next t ∧ t.inputs = rest ∧ Refused { s with inputs := rest } t

/-- R232: a single step runs one slot and then publishes, DIRTY or not, without a timer decrement; RUN is
unchanged. (That the result OK follows the frame is the model's order, notes/assumptions 11.) -/
def Obligations.SingleStepPublishes : Prop :=
  ∀ (rest : List Input) (s t : State), s.slotsLeft = 0 → s.inputs = .step :: rest → s.run ≠ .running →
    s.fault = none → slot { s with inputs := rest } = .next t → t.fault = none →
    ∃ u, step s = .next u ∧ u.out = t.out ++ [.frame t.fb, .result .ok] ∧ u.dirty = false ∧
      u.run = s.run ∧ OnlyChanges [.outputs, .dirty] t u

/-- R231, R215: inside a tick no request but a key event is taken: whatever waits, the slot runs and the
waiting events stay as they are. (That a key event behind another waiting event is not posted inside the tick
is the model's choice: notes/assumptions 18.) -/
def Obligations.RequestsWaitForTickEnd : Prop :=
  ∀ s t : State, 0 < s.slotsLeft → (∀ e rest, s.inputs ≠ .key e :: rest) → step s = .next t →
    t.inputs = s.inputs ∧ t.ips = s.ips ∧ t.img = s.img

/-! ### Snapshots (70_reset_and_hazards.md) -/

/-- R282: SAVE answers the encoded record of R280, whose every field is the state's, and changes no state; from a
state that meets the invariant, decoding the blob gives the record back (R281). (That OK follows the blob is
the model's choice: notes/assumptions 11.) -/
def Obligations.SaveChangesNothing : Prop :=
  ∀ (s : State) (rest : List Input), s.slotsLeft = 0 → s.inputs = .save :: rest → s.run ≠ .running →
    ∃ (t : State) (p : Snapshot), step s = .next t ∧ t.inputs = rest ∧
      (∀ a : Fin 4096, p.mem[a] = s.load a) ∧ p.v = s.v ∧ p.fb = s.fb ∧ p.stack = s.stack ∧ p.pc = s.pc ∧
      p.I = s.I ∧ p.dt = s.dt ∧ p.st = s.st ∧ p.keys = s.keys ∧ p.awaitKey = s.awaitKey ∧
      p.fault = s.fault ∧ p.img = s.img ∧
      t.out = s.out ++ [.blob (s.codec.encode p), .result .ok] ∧ OnlyChanges [.inputs, .outputs] s t ∧
      (Inv s → s.codec.decode (s.codec.encode p) = some p)

/-- R284, R285: LOAD_SNAPSHOT of a blob that decodes replaces every field of R280 at once and sets DIRTY, RUN,
IPS and KQ unchanged, and with a loaded fault START and STEP are refused; a malformed blob answers FORMAT_ERROR and changes nothing. -/
def Obligations.LoadSnapshotReplacesAllOrNothing : Prop :=
  ∀ (s : State) (blob : Bytes) (rest : List Input),
    s.slotsLeft = 0 → s.inputs = .loadSnapshot blob :: rest → s.run ≠ .running →
    ∃ t, step s = .next t ∧ t.inputs = rest ∧
      (∀ p, s.codec.decode blob = some p →
        (∀ a : Fin 4096, t.load a = p.mem[a]) ∧ t.v = p.v ∧ t.fb = p.fb ∧ t.stack = p.stack ∧ t.pc = p.pc ∧
        t.I = p.I ∧ t.dt = p.dt ∧ t.st = p.st ∧ t.keys = p.keys ∧ t.awaitKey = p.awaitKey ∧
        t.fault = p.fault ∧ t.img = p.img ∧ t.dirty = true ∧ t.out = s.out ++ [.result .ok] ∧
        (∀ q ∈ [Part.run, .rate, .queue, .params, .tickLeft, .draws], Part.Same s t q) ∧
        (p.fault ≠ none → ∀ r ∈ [Input.start, .step], ∀ later : List Input,
          ∃ u, step { t with inputs := r :: later } = .next u ∧ Refused { t with inputs := later } u)) ∧
      (s.codec.decode blob = none →
        t.out = s.out ++ [.result .formatError] ∧ OnlyChanges [.inputs, .outputs] s t)

/-- R286: load(save()) restores the state: from every state that meets the invariant, the blob that SAVE
answers, loaded, gives back every field exactly, memory as data included, except that DIRTY is set.
(That OK follows the blob is the model's choice: notes/assumptions 11.) -/
def Obligations.LoadOfSaveRestoresState : Prop :=
  ∀ (s : State) (rest : List Input), Inv s → s.slotsLeft = 0 → s.run ≠ .running →
    ∃ (b : Bytes) (t u : State),
      step { s with inputs := [.save] } = .next t ∧
      t = { s with inputs := [], out := s.out ++ [.blob b, .result .ok] } ∧
      step { t with inputs := .loadSnapshot b :: rest } = .next u ∧
      u = { t with inputs := rest, dirty := true, out := t.out ++ [.result .ok] }
end

