-- ==== Sys2Proof/Laws/Decode.lean ====
section
/-! SUPPORT. The fields of a word as numbers, the words of the three encoding formats as numbers, and the
fields read back from them. -/

namespace Sys2Proof

/-! ### Fields of a word -/

theorem opOf_toNat (w : Word) : (opOf w).toNat = w.toNat / 4096 := by
  have := w.isLt
  simp only [opOf, BitVec.extractLsb'_toNat, Nat.shiftRight_eq_div_pow]
  omega

theorem xOf_toNat (w : Word) : (xOf w).toNat = w.toNat / 256 % 16 := by
  simp [xOf, BitVec.extractLsb'_toNat, Nat.shiftRight_eq_div_pow]

theorem yOf_toNat (w : Word) : (yOf w).toNat = w.toNat / 16 % 16 := by
  simp [yOf, BitVec.extractLsb'_toNat, Nat.shiftRight_eq_div_pow]

theorem nOf_toNat (w : Word) : (nOf w).toNat = w.toNat % 16 := by
  simp [nOf, BitVec.extractLsb'_toNat]

theorem kkOf_toNat (w : Word) : (kkOf w).toNat = w.toNat % 256 := by
  simp [kkOf, BitVec.extractLsb'_toNat]

theorem nnnOf_toNat (w : Word) : (nnnOf w).toNat = w.toNat % 4096 := by
  simp [nnnOf, BitVec.extractLsb'_toNat]

theorem hiByte_toNat (w : Word) : (hiByte w).toNat = w.toNat / 256 := by
  have := w.isLt
  simp only [hiByte, BitVec.extractLsb'_toNat, Nat.shiftRight_eq_div_pow]
  omega

theorem loByte_toNat (w : Word) : (loByte w).toNat = w.toNat % 256 := by
  simp [loByte, BitVec.extractLsb'_toNat]

theorem wordOfBytes_toNat (hi lo : Byte) : (wordOfBytes hi lo).toNat = 256 * hi.toNat + lo.toNat := by
  have := lo.isLt
  rw [wordOfBytes, BitVec.toNat_append, Nat.shiftLeft_eq, Nat.mul_comm, ← Nat.two_pow_add_eq_or_of_lt this]

theorem wordOfBytes_hiByte_loByte (w : Word) : wordOfBytes (hiByte w) (loByte w) = w := by
  apply BitVec.eq_of_toNat_eq
  rw [wordOfBytes_toNat, hiByte_toNat, loByte_toNat]
  omega

theorem hiByte_wordOfBytes (hi lo : Byte) : hiByte (wordOfBytes hi lo) = hi := by
  apply BitVec.eq_of_toNat_eq
  rw [hiByte_toNat, wordOfBytes_toNat]
  omega

theorem loByte_wordOfBytes (hi lo : Byte) : loByte (wordOfBytes hi lo) = lo := by
  apply BitVec.eq_of_toNat_eq
  rw [loByte_toNat, wordOfBytes_toNat]
  omega

/-! ### Formats as numbers -/

theorem formatNNN_toNat (op : BitVec 4) (nnn : Addr) :
    (formatNNN op nnn).toNat = 4096 * op.toNat + nnn.toNat := by
  rw [formatNNN, BitVec.toNat_append, Nat.shiftLeft_eq, Nat.mul_comm, ← Nat.two_pow_add_eq_or_of_lt nnn.isLt]

theorem formatXKK_toNat (op : BitVec 4) (x : Reg) (kk : Byte) :
    (formatXKK op x kk).toNat = 4096 * op.toNat + 256 * x.toNat + kk.toNat := by
  have h := (x ++ kk).isLt
  rw [formatXKK, BitVec.toNat_append, Nat.shiftLeft_eq, Nat.mul_comm, ← Nat.two_pow_add_eq_or_of_lt h,
    BitVec.toNat_append, Nat.shiftLeft_eq, Nat.mul_comm x.toNat, ← Nat.two_pow_add_eq_or_of_lt kk.isLt]
  omega

theorem formatXYN_toNat (op x y n : BitVec 4) :
    (formatXYN op x y n).toNat = 4096 * op.toNat + 256 * x.toNat + 16 * y.toNat + n.toNat := by
  have h := (x ++ (y ++ n)).isLt
  have h' := (y ++ n).isLt
  rw [formatXYN, BitVec.toNat_append, Nat.shiftLeft_eq, Nat.mul_comm, ← Nat.two_pow_add_eq_or_of_lt h,
    BitVec.toNat_append, Nat.shiftLeft_eq, Nat.mul_comm x.toNat, ← Nat.two_pow_add_eq_or_of_lt h',
    BitVec.toNat_append, Nat.shiftLeft_eq, Nat.mul_comm y.toNat, ← Nat.two_pow_add_eq_or_of_lt n.isLt]
  omega

/-! ### Fields of a format -/

variable (op x y n : BitVec 4) (kk : Byte) (nnn : Addr)

@[simp] theorem opOf_formatNNN : opOf (formatNNN op nnn) = op := by
  apply BitVec.eq_of_toNat_eq
  rw [opOf_toNat, formatNNN_toNat]
  omega

@[simp] theorem nnnOf_formatNNN : nnnOf (formatNNN op nnn) = nnn := by
  apply BitVec.eq_of_toNat_eq
  rw [nnnOf_toNat, formatNNN_toNat]
  omega

@[simp] theorem opOf_formatXKK : opOf (formatXKK op x kk) = op := by
  apply BitVec.eq_of_toNat_eq
  rw [opOf_toNat, formatXKK_toNat]
  omega

@[simp] theorem xOf_formatXKK : xOf (formatXKK op x kk) = x := by
  apply BitVec.eq_of_toNat_eq
  rw [xOf_toNat, formatXKK_toNat]
  omega

@[simp] theorem kkOf_formatXKK : kkOf (formatXKK op x kk) = kk := by
  apply BitVec.eq_of_toNat_eq
  rw [kkOf_toNat, formatXKK_toNat]
  omega

@[simp] theorem opOf_formatXYN : opOf (formatXYN op x y n) = op := by
  apply BitVec.eq_of_toNat_eq
  rw [opOf_toNat, formatXYN_toNat]
  omega

@[simp] theorem xOf_formatXYN : xOf (formatXYN op x y n) = x := by
  apply BitVec.eq_of_toNat_eq
  rw [xOf_toNat, formatXYN_toNat]
  omega

@[simp] theorem yOf_formatXYN : yOf (formatXYN op x y n) = y := by
  apply BitVec.eq_of_toNat_eq
  rw [yOf_toNat, formatXYN_toNat]
  omega

@[simp] theorem nOf_formatXYN : nOf (formatXYN op x y n) = n := by
  apply BitVec.eq_of_toNat_eq
  rw [nOf_toNat, formatXYN_toNat]
  omega

/-! ### A word is its fields -/

theorem formatNNN_fields (w : Word) : formatNNN (opOf w) (nnnOf w) = w := by
  apply BitVec.eq_of_toNat_eq
  rw [formatNNN_toNat, opOf_toNat, nnnOf_toNat]
  omega

theorem formatXKK_fields (w : Word) : formatXKK (opOf w) (xOf w) (kkOf w) = w := by
  apply BitVec.eq_of_toNat_eq
  rw [formatXKK_toNat, opOf_toNat, xOf_toNat, kkOf_toNat]
  omega

theorem formatXYN_fields (w : Word) : formatXYN (opOf w) (xOf w) (yOf w) (nOf w) = w := by
  apply BitVec.eq_of_toNat_eq
  rw [formatXYN_toNat, opOf_toNat, xOf_toNat, yOf_toNat, nOf_toNat]
  omega


/-! ### Masks of the table as fields -/

theorem and_maskF000 (w : Word) : w &&& 0xF000#16 = formatNNN (opOf w) 0#12 := by
  conv_lhs => rw [← formatNNN_fields w]
  change (opOf w ++ nnnOf w) &&& (BitVec.allOnes 4 ++ 0#12) = _
  rw [BitVec.and_append, BitVec.and_allOnes, BitVec.and_zero, formatNNN]

theorem and_maskF00F (w : Word) : w &&& 0xF00F#16 = formatXYN (opOf w) 0#4 0#4 (nOf w) := by
  conv_lhs => rw [← formatXYN_fields w]
  change (opOf w ++ (xOf w ++ (yOf w ++ nOf w))) &&& (BitVec.allOnes 4 ++ (0#4 ++ (0#4 ++ BitVec.allOnes 4))) =
    formatXYN (opOf w) 0#4 0#4 (nOf w)
  simp only [BitVec.and_append, BitVec.and_allOnes, BitVec.and_zero, formatXYN]

theorem and_maskF0FF (w : Word) : w &&& 0xF0FF#16 = formatXKK (opOf w) 0#4 (kkOf w) := by
  conv_lhs => rw [← formatXKK_fields w]
  change (opOf w ++ (xOf w ++ kkOf w)) &&& (BitVec.allOnes 4 ++ (0#4 ++ BitVec.allOnes 8)) = _
  simp only [BitVec.and_append, BitVec.and_allOnes, BitVec.and_zero, formatXKK]

theorem and_maskFFFF (w : Word) : w &&& 0xFFFF#16 = w := by
  change w &&& BitVec.allOnes 16 = w
  exact BitVec.and_allOnes

/-- A row of mask F000 selects the words of its major opcode. -/
theorem selects_F000 (w : Word) (op : BitVec 4) :
    OpRow.selects ⟨0xF000#16, formatNNN op 0#12⟩ w = true ↔ opOf w = op := by
  rw [OpRow.selects, beq_iff_eq, and_maskF000]
  exact ⟨fun h => by simpa using congrArg opOf h, fun h => by rw [h]⟩

/-- A row of mask F00F selects the words of its major opcode and last nibble. -/
theorem selects_F00F (w : Word) (op n : BitVec 4) :
    OpRow.selects ⟨0xF00F#16, formatXYN op 0#4 0#4 n⟩ w = true ↔ opOf w = op ∧ nOf w = n := by
  rw [OpRow.selects, beq_iff_eq, and_maskF00F]
  exact ⟨fun h => ⟨by simpa using congrArg opOf h, by simpa using congrArg nOf h⟩, fun h => by rw [h.1, h.2]⟩

/-- A row of mask F0FF selects the words of its major opcode and low byte. -/
theorem selects_F0FF (w : Word) (op : BitVec 4) (kk : Byte) :
    OpRow.selects ⟨0xF0FF#16, formatXKK op 0#4 kk⟩ w = true ↔ opOf w = op ∧ kkOf w = kk := by
  rw [OpRow.selects, beq_iff_eq, and_maskF0FF]
  exact ⟨fun h => ⟨by simpa using congrArg opOf h, by simpa using congrArg kkOf h⟩, fun h => by rw [h.1, h.2]⟩

/-- A row of mask FFFF selects one word. -/
theorem selects_FFFF (w p : Word) : OpRow.selects ⟨0xFFFF#16, p⟩ w = true ↔ w = p := by
  rw [OpRow.selects, beq_iff_eq, and_maskFFFF]

/-- A field whose number is known. -/
theorem field_eq {v : Nat} {a : BitVec v} {k : Nat} (h : a.toNat = k) (hk : k < 2 ^ v) : a = BitVec.ofNat v k :=
  BitVec.eq_of_toNat_eq (by simp [h, Nat.mod_eq_of_lt hk])

/-- An instruction stands for a word: it is of a row 1 to 34 that selects the word, or it is the word as data. -/
def StandsFor (i : Instr) (w : Word) : Prop := i = .dw w ∨ (i.row ∈ opRows ∧ i.row.selects w = true)

theorem decodeGroup8_standsFor (w : Word) (h : opOf w = 0x8#4) : StandsFor (decodeGroup8 w) w := by
  have sel {j : Nat} (hn : (nOf w).toNat = j) (hj : j < 2 ^ 4) :=
    (selects_F00F w _ _).mpr ⟨h, field_eq hn hj⟩
  rw [decodeGroup8]
  split
  case h_10 => exact .inl rfl
  all_goals
    rename_i h
    have hs := sel h (by decide)
    exact .inr ⟨by simp [Instr.row, opRows], hs⟩

theorem decodeGroupE_standsFor (w : Word) (h : opOf w = 0xE#4) : StandsFor (decodeGroupE w) w := by
  have sel {kk : Byte} (hk : kkOf w = kk) := (selects_F0FF w _ _).mpr ⟨h, hk⟩
  rw [decodeGroupE]
  split_ifs
  case neg => exact .inl rfl
  all_goals
    rename_i h
    have hs := sel h
    exact .inr ⟨by simp [Instr.row, opRows], hs⟩

theorem decodeGroupF_standsFor (w : Word) (h : opOf w = 0xF#4) : StandsFor (decodeGroupF w) w := by
  have sel {kk : Byte} (hk : kkOf w = kk) := (selects_F0FF w _ _).mpr ⟨h, hk⟩
  rw [decodeGroupF]
  split_ifs
  case neg => exact .inl rfl
  all_goals
    rename_i h
    have hs := sel h
    exact .inr ⟨by simp [Instr.row, opRows], hs⟩

/-- The decoder gives an instruction that stands for the word. -/
theorem decodeWord_standsFor (w : Word) : StandsFor (decodeWord w) w := by
  have op {k : Nat} (h : (opOf w).toNat = k) (hk : k < 2 ^ 4) := field_eq h hk
  have sel {k : Nat} (h : (opOf w).toNat = k) (hk : k < 2 ^ 4) := (selects_F000 w _).mpr (op h hk)
  have sel0 {k : Nat} (h : (opOf w).toNat = k) (hk : k < 2 ^ 4) (hn : nOf w = 0x0#4) :=
    (selects_F00F w _ _).mpr ⟨op h hk, hn⟩
  rw [decodeWord]
  split
  case h_1 =>
    split_ifs
    · exact .inr ⟨by decide, (selects_FFFF w _).mpr ‹_›⟩
    · exact .inr ⟨by decide, (selects_FFFF w _).mpr ‹_›⟩
    · exact .inl rfl
  case h_6 h =>
    split_ifs with hn
    · exact .inr ⟨by simp [Instr.row, opRows], sel0 h (by decide) hn⟩
    · exact .inl rfl
  case h_9 h => exact decodeGroup8_standsFor w (op h (by decide))
  case h_10 h =>
    split_ifs with hn
    · exact .inr ⟨by simp [Instr.row, opRows], sel0 h (by decide) hn⟩
    · exact .inl rfl
  case h_15 h => exact decodeGroupE_standsFor w (op h (by decide))
  case h_16 =>
    refine decodeGroupF_standsFor w (op (k := 15) ?_ (by decide))
    have := (opOf w).isLt
    interval_cases (opOf w).toNat <;> simp_all
  all_goals
    rename_i h
    have hs := sel h (by decide)
    exact .inr ⟨by simp [Instr.row, opRows], hs⟩

/-- A word no row selects decodes to itself as data. -/
theorem decodeWord_of_unrecognized (w : Word) (h : Word.unrecognized w = true) : decodeWord w = .dw w := by
  refine (decodeWord_standsFor w).resolve_right fun ⟨hr, hs⟩ => ?_
  have := List.all_eq_true.mp h _ hr
  simp [hs] at this

/-! ### Assembler syntax -/

/-- The line of a well-formed instruction assembles to it, but that y of 8xy6 and 8xyE becomes 0 (R89). -/
theorem assemble_toAsm (i : Instr) (h : i.wf = true) :
    assemble (toAsm i) = some i ∨ (∃ x y, i = .shr x y ∧ assemble (toAsm i) = some (.shr x 0)) ∨
      ∃ x y, i = .shl x y ∧ assemble (toAsm i) = some (.shl x 0) := by
  cases i
  case shr x y => exact .inr (.inl ⟨x, y, rfl, rfl⟩)
  case shl x y => exact .inr (.inr ⟨x, y, rfl, rfl⟩)
  case dw w => exact .inl (if_pos h)
  all_goals exact .inl rfl

/-- A line that assembles is the line of its instruction. -/
theorem toAsm_of_assemble {l : AsmLine} {i : Instr} (h : assemble l = some i) : toAsm i = l := by
  obtain ⟨m, ops⟩ := l
  unfold assemble at h
  split at h
  all_goals first
    | (split at h <;> cases h <;> simp_all [toAsm])
    | (cases h <;> simp_all [toAsm])

end Sys2Proof
end

