-- ==== Sys2Proof/Laws/State.lean ====
section
/-! SUPPORT. One lemma per field per update, true by rfl: what each shared operation does to each field of
the state, and to the three reads built on fields (a register, a byte of memory, a key). -/

namespace Sys2Proof.Machine.State

@[simp] theorem nextInstr_eq (s : State) : s.nextInstr = s.advance 2 := rfl
@[simp] theorem skipIf_eq (s : State) (c : Bool) : s.skipIf c = s.advance (if c then 4 else 2) := rfl
@[simp] theorem reply_eq (s : State) (r : RequestResult) : s.reply r = s.emit (.result r) := rfl
@[simp] theorem takeKey_eq (s : State) (x : Reg) (k : KeyIndex) :
    s.takeKey x k = (s.setReg x (k.setWidth 8)).advance 2 := rfl

/-! ### setReg -/

@[simp] theorem setReg_v (s : State) (x : Reg) (b : Byte) : (s.setReg x b).v = s.v.set x.toNat b x.isLt := rfl
@[simp] theorem setReg_I (s : State) (x : Reg) (b : Byte) : (s.setReg x b).I = s.I := rfl
@[simp] theorem setReg_pc (s : State) (x : Reg) (b : Byte) : (s.setReg x b).pc = s.pc := rfl
@[simp] theorem setReg_stack (s : State) (x : Reg) (b : Byte) : (s.setReg x b).stack = s.stack := rfl
@[simp] theorem setReg_dt (s : State) (x : Reg) (b : Byte) : (s.setReg x b).dt = s.dt := rfl
@[simp] theorem setReg_st (s : State) (x : Reg) (b : Byte) : (s.setReg x b).st = s.st := rfl
@[simp] theorem setReg_mem (s : State) (x : Reg) (b : Byte) : (s.setReg x b).mem = s.mem := rfl
@[simp] theorem setReg_fb (s : State) (x : Reg) (b : Byte) : (s.setReg x b).fb = s.fb := rfl
@[simp] theorem setReg_keys (s : State) (x : Reg) (b : Byte) : (s.setReg x b).keys = s.keys := rfl
@[simp] theorem setReg_run (s : State) (x : Reg) (b : Byte) : (s.setReg x b).run = s.run := rfl
@[simp] theorem setReg_ips (s : State) (x : Reg) (b : Byte) : (s.setReg x b).ips = s.ips := rfl
@[simp] theorem setReg_dirty (s : State) (x : Reg) (b : Byte) : (s.setReg x b).dirty = s.dirty := rfl
@[simp] theorem setReg_awaitKey (s : State) (x : Reg) (b : Byte) : (s.setReg x b).awaitKey = s.awaitKey := rfl
@[simp] theorem setReg_kq (s : State) (x : Reg) (b : Byte) : (s.setReg x b).kq = s.kq := rfl
@[simp] theorem setReg_fault (s : State) (x : Reg) (b : Byte) : (s.setReg x b).fault = s.fault := rfl
@[simp] theorem setReg_img (s : State) (x : Reg) (b : Byte) : (s.setReg x b).img = s.img := rfl
@[simp] theorem setReg_params (s : State) (x : Reg) (b : Byte) : (s.setReg x b).params = s.params := rfl
@[simp] theorem setReg_inputs (s : State) (x : Reg) (b : Byte) : (s.setReg x b).inputs = s.inputs := rfl
@[simp] theorem setReg_slotsLeft (s : State) (x : Reg) (b : Byte) : (s.setReg x b).slotsLeft = s.slotsLeft := rfl
@[simp] theorem setReg_out (s : State) (x : Reg) (b : Byte) : (s.setReg x b).out = s.out := rfl
@[simp] theorem setReg_draws (s : State) (x : Reg) (b : Byte) : (s.setReg x b).draws = s.draws := rfl
@[simp] theorem setReg_load (s : State) (x : Reg) (b : Byte) (adr : Nat) : (s.setReg x b).load adr = s.load adr := rfl
@[simp] theorem setReg_keyDown (s : State) (x : Reg) (b : Byte) (key : KeyIndex) : (s.setReg x b).keyDown key = s.keyDown key := rfl

/-! ### store -/

@[simp] theorem store_v (s : State) (a : Nat) (b : Byte) : (s.store a b).v = s.v := rfl
@[simp] theorem store_I (s : State) (a : Nat) (b : Byte) : (s.store a b).I = s.I := rfl
@[simp] theorem store_pc (s : State) (a : Nat) (b : Byte) : (s.store a b).pc = s.pc := rfl
@[simp] theorem store_stack (s : State) (a : Nat) (b : Byte) : (s.store a b).stack = s.stack := rfl
@[simp] theorem store_dt (s : State) (a : Nat) (b : Byte) : (s.store a b).dt = s.dt := rfl
@[simp] theorem store_st (s : State) (a : Nat) (b : Byte) : (s.store a b).st = s.st := rfl
@[simp] theorem store_mem (s : State) (a : Nat) (b : Byte) : (s.store a b).mem = Mem.write s.params.font s.mem a b := rfl
@[simp] theorem store_fb (s : State) (a : Nat) (b : Byte) : (s.store a b).fb = s.fb := rfl
@[simp] theorem store_keys (s : State) (a : Nat) (b : Byte) : (s.store a b).keys = s.keys := rfl
@[simp] theorem store_run (s : State) (a : Nat) (b : Byte) : (s.store a b).run = s.run := rfl
@[simp] theorem store_ips (s : State) (a : Nat) (b : Byte) : (s.store a b).ips = s.ips := rfl
@[simp] theorem store_dirty (s : State) (a : Nat) (b : Byte) : (s.store a b).dirty = s.dirty := rfl
@[simp] theorem store_awaitKey (s : State) (a : Nat) (b : Byte) : (s.store a b).awaitKey = s.awaitKey := rfl
@[simp] theorem store_kq (s : State) (a : Nat) (b : Byte) : (s.store a b).kq = s.kq := rfl
@[simp] theorem store_fault (s : State) (a : Nat) (b : Byte) : (s.store a b).fault = s.fault := rfl
@[simp] theorem store_img (s : State) (a : Nat) (b : Byte) : (s.store a b).img = s.img := rfl
@[simp] theorem store_params (s : State) (a : Nat) (b : Byte) : (s.store a b).params = s.params := rfl
@[simp] theorem store_inputs (s : State) (a : Nat) (b : Byte) : (s.store a b).inputs = s.inputs := rfl
@[simp] theorem store_slotsLeft (s : State) (a : Nat) (b : Byte) : (s.store a b).slotsLeft = s.slotsLeft := rfl
@[simp] theorem store_out (s : State) (a : Nat) (b : Byte) : (s.store a b).out = s.out := rfl
@[simp] theorem store_draws (s : State) (a : Nat) (b : Byte) : (s.store a b).draws = s.draws := rfl
@[simp] theorem store_reg (s : State) (a : Nat) (b : Byte) (r : Reg) : (s.store a b).reg r = s.reg r := rfl
@[simp] theorem store_keyDown (s : State) (a : Nat) (b : Byte) (key : KeyIndex) : (s.store a b).keyDown key = s.keyDown key := rfl

/-! ### storeList -/

@[simp] theorem storeList_v (s : State) (a : Nat) (bs : List Byte) : (s.storeList a bs).v = s.v := rfl
@[simp] theorem storeList_I (s : State) (a : Nat) (bs : List Byte) : (s.storeList a bs).I = s.I := rfl
@[simp] theorem storeList_pc (s : State) (a : Nat) (bs : List Byte) : (s.storeList a bs).pc = s.pc := rfl
@[simp] theorem storeList_stack (s : State) (a : Nat) (bs : List Byte) : (s.storeList a bs).stack = s.stack := rfl
@[simp] theorem storeList_dt (s : State) (a : Nat) (bs : List Byte) : (s.storeList a bs).dt = s.dt := rfl
@[simp] theorem storeList_st (s : State) (a : Nat) (bs : List Byte) : (s.storeList a bs).st = s.st := rfl
@[simp] theorem storeList_mem (s : State) (a : Nat) (bs : List Byte) : (s.storeList a bs).mem = Mem.writeList s.params.font s.mem a bs := rfl
@[simp] theorem storeList_fb (s : State) (a : Nat) (bs : List Byte) : (s.storeList a bs).fb = s.fb := rfl
@[simp] theorem storeList_keys (s : State) (a : Nat) (bs : List Byte) : (s.storeList a bs).keys = s.keys := rfl
@[simp] theorem storeList_run (s : State) (a : Nat) (bs : List Byte) : (s.storeList a bs).run = s.run := rfl
@[simp] theorem storeList_ips (s : State) (a : Nat) (bs : List Byte) : (s.storeList a bs).ips = s.ips := rfl
@[simp] theorem storeList_dirty (s : State) (a : Nat) (bs : List Byte) : (s.storeList a bs).dirty = s.dirty := rfl
@[simp] theorem storeList_awaitKey (s : State) (a : Nat) (bs : List Byte) : (s.storeList a bs).awaitKey = s.awaitKey := rfl
@[simp] theorem storeList_kq (s : State) (a : Nat) (bs : List Byte) : (s.storeList a bs).kq = s.kq := rfl
@[simp] theorem storeList_fault (s : State) (a : Nat) (bs : List Byte) : (s.storeList a bs).fault = s.fault := rfl
@[simp] theorem storeList_img (s : State) (a : Nat) (bs : List Byte) : (s.storeList a bs).img = s.img := rfl
@[simp] theorem storeList_params (s : State) (a : Nat) (bs : List Byte) : (s.storeList a bs).params = s.params := rfl
@[simp] theorem storeList_inputs (s : State) (a : Nat) (bs : List Byte) : (s.storeList a bs).inputs = s.inputs := rfl
@[simp] theorem storeList_slotsLeft (s : State) (a : Nat) (bs : List Byte) : (s.storeList a bs).slotsLeft = s.slotsLeft := rfl
@[simp] theorem storeList_out (s : State) (a : Nat) (bs : List Byte) : (s.storeList a bs).out = s.out := rfl
@[simp] theorem storeList_draws (s : State) (a : Nat) (bs : List Byte) : (s.storeList a bs).draws = s.draws := rfl
@[simp] theorem storeList_reg (s : State) (a : Nat) (bs : List Byte) (r : Reg) : (s.storeList a bs).reg r = s.reg r := rfl
@[simp] theorem storeList_keyDown (s : State) (a : Nat) (bs : List Byte) (key : KeyIndex) : (s.storeList a bs).keyDown key = s.keyDown key := rfl

/-! ### advance -/

@[simp] theorem advance_v (s : State) (k : Nat) : (s.advance k).v = s.v := rfl
@[simp] theorem advance_I (s : State) (k : Nat) : (s.advance k).I = s.I := rfl
@[simp] theorem advance_pc (s : State) (k : Nat) : (s.advance k).pc = pcPlus s.pc k := rfl
@[simp] theorem advance_stack (s : State) (k : Nat) : (s.advance k).stack = s.stack := rfl
@[simp] theorem advance_dt (s : State) (k : Nat) : (s.advance k).dt = s.dt := rfl
@[simp] theorem advance_st (s : State) (k : Nat) : (s.advance k).st = s.st := rfl
@[simp] theorem advance_mem (s : State) (k : Nat) : (s.advance k).mem = s.mem := rfl
@[simp] theorem advance_fb (s : State) (k : Nat) : (s.advance k).fb = s.fb := rfl
@[simp] theorem advance_keys (s : State) (k : Nat) : (s.advance k).keys = s.keys := rfl
@[simp] theorem advance_run (s : State) (k : Nat) : (s.advance k).run = s.run := rfl
@[simp] theorem advance_ips (s : State) (k : Nat) : (s.advance k).ips = s.ips := rfl
@[simp] theorem advance_dirty (s : State) (k : Nat) : (s.advance k).dirty = s.dirty := rfl
@[simp] theorem advance_awaitKey (s : State) (k : Nat) : (s.advance k).awaitKey = s.awaitKey := rfl
@[simp] theorem advance_kq (s : State) (k : Nat) : (s.advance k).kq = s.kq := rfl
@[simp] theorem advance_fault (s : State) (k : Nat) : (s.advance k).fault = s.fault := rfl
@[simp] theorem advance_img (s : State) (k : Nat) : (s.advance k).img = s.img := rfl
@[simp] theorem advance_params (s : State) (k : Nat) : (s.advance k).params = s.params := rfl
@[simp] theorem advance_inputs (s : State) (k : Nat) : (s.advance k).inputs = s.inputs := rfl
@[simp] theorem advance_slotsLeft (s : State) (k : Nat) : (s.advance k).slotsLeft = s.slotsLeft := rfl
@[simp] theorem advance_out (s : State) (k : Nat) : (s.advance k).out = s.out := rfl
@[simp] theorem advance_draws (s : State) (k : Nat) : (s.advance k).draws = s.draws := rfl
@[simp] theorem advance_reg (s : State) (k : Nat) (r : Reg) : (s.advance k).reg r = s.reg r := rfl
@[simp] theorem advance_load (s : State) (k : Nat) (adr : Nat) : (s.advance k).load adr = s.load adr := rfl
@[simp] theorem advance_keyDown (s : State) (k : Nat) (key : KeyIndex) : (s.advance k).keyDown key = s.keyDown key := rfl

/-! ### jump -/

@[simp] theorem jump_v (s : State) (p : Pc) : (s.jump p).v = s.v := rfl
@[simp] theorem jump_I (s : State) (p : Pc) : (s.jump p).I = s.I := rfl
@[simp] theorem jump_pc (s : State) (p : Pc) : (s.jump p).pc = p := rfl
@[simp] theorem jump_stack (s : State) (p : Pc) : (s.jump p).stack = s.stack := rfl
@[simp] theorem jump_dt (s : State) (p : Pc) : (s.jump p).dt = s.dt := rfl
@[simp] theorem jump_st (s : State) (p : Pc) : (s.jump p).st = s.st := rfl
@[simp] theorem jump_mem (s : State) (p : Pc) : (s.jump p).mem = s.mem := rfl
@[simp] theorem jump_fb (s : State) (p : Pc) : (s.jump p).fb = s.fb := rfl
@[simp] theorem jump_keys (s : State) (p : Pc) : (s.jump p).keys = s.keys := rfl
@[simp] theorem jump_run (s : State) (p : Pc) : (s.jump p).run = s.run := rfl
@[simp] theorem jump_ips (s : State) (p : Pc) : (s.jump p).ips = s.ips := rfl
@[simp] theorem jump_dirty (s : State) (p : Pc) : (s.jump p).dirty = s.dirty := rfl
@[simp] theorem jump_awaitKey (s : State) (p : Pc) : (s.jump p).awaitKey = s.awaitKey := rfl
@[simp] theorem jump_kq (s : State) (p : Pc) : (s.jump p).kq = s.kq := rfl
@[simp] theorem jump_fault (s : State) (p : Pc) : (s.jump p).fault = s.fault := rfl
@[simp] theorem jump_img (s : State) (p : Pc) : (s.jump p).img = s.img := rfl
@[simp] theorem jump_params (s : State) (p : Pc) : (s.jump p).params = s.params := rfl
@[simp] theorem jump_inputs (s : State) (p : Pc) : (s.jump p).inputs = s.inputs := rfl
@[simp] theorem jump_slotsLeft (s : State) (p : Pc) : (s.jump p).slotsLeft = s.slotsLeft := rfl
@[simp] theorem jump_out (s : State) (p : Pc) : (s.jump p).out = s.out := rfl
@[simp] theorem jump_draws (s : State) (p : Pc) : (s.jump p).draws = s.draws := rfl
@[simp] theorem jump_reg (s : State) (p : Pc) (r : Reg) : (s.jump p).reg r = s.reg r := rfl
@[simp] theorem jump_load (s : State) (p : Pc) (adr : Nat) : (s.jump p).load adr = s.load adr := rfl
@[simp] theorem jump_keyDown (s : State) (p : Pc) (key : KeyIndex) : (s.jump p).keyDown key = s.keyDown key := rfl

/-! ### push -/

@[simp] theorem push_v (s : State) (p : Pc) : (s.push p).v = s.v := rfl
@[simp] theorem push_I (s : State) (p : Pc) : (s.push p).I = s.I := rfl
@[simp] theorem push_pc (s : State) (p : Pc) : (s.push p).pc = s.pc := rfl
@[simp] theorem push_stack (s : State) (p : Pc) : (s.push p).stack = p :: s.stack := rfl
@[simp] theorem push_dt (s : State) (p : Pc) : (s.push p).dt = s.dt := rfl
@[simp] theorem push_st (s : State) (p : Pc) : (s.push p).st = s.st := rfl
@[simp] theorem push_mem (s : State) (p : Pc) : (s.push p).mem = s.mem := rfl
@[simp] theorem push_fb (s : State) (p : Pc) : (s.push p).fb = s.fb := rfl
@[simp] theorem push_keys (s : State) (p : Pc) : (s.push p).keys = s.keys := rfl
@[simp] theorem push_run (s : State) (p : Pc) : (s.push p).run = s.run := rfl
@[simp] theorem push_ips (s : State) (p : Pc) : (s.push p).ips = s.ips := rfl
@[simp] theorem push_dirty (s : State) (p : Pc) : (s.push p).dirty = s.dirty := rfl
@[simp] theorem push_awaitKey (s : State) (p : Pc) : (s.push p).awaitKey = s.awaitKey := rfl
@[simp] theorem push_kq (s : State) (p : Pc) : (s.push p).kq = s.kq := rfl
@[simp] theorem push_fault (s : State) (p : Pc) : (s.push p).fault = s.fault := rfl
@[simp] theorem push_img (s : State) (p : Pc) : (s.push p).img = s.img := rfl
@[simp] theorem push_params (s : State) (p : Pc) : (s.push p).params = s.params := rfl
@[simp] theorem push_inputs (s : State) (p : Pc) : (s.push p).inputs = s.inputs := rfl
@[simp] theorem push_slotsLeft (s : State) (p : Pc) : (s.push p).slotsLeft = s.slotsLeft := rfl
@[simp] theorem push_out (s : State) (p : Pc) : (s.push p).out = s.out := rfl
@[simp] theorem push_draws (s : State) (p : Pc) : (s.push p).draws = s.draws := rfl
@[simp] theorem push_reg (s : State) (p : Pc) (r : Reg) : (s.push p).reg r = s.reg r := rfl
@[simp] theorem push_load (s : State) (p : Pc) (adr : Nat) : (s.push p).load adr = s.load adr := rfl
@[simp] theorem push_keyDown (s : State) (p : Pc) (key : KeyIndex) : (s.push p).keyDown key = s.keyDown key := rfl

/-! ### emit -/

@[simp] theorem emit_v (s : State) (e : OutEvent) : (s.emit e).v = s.v := rfl
@[simp] theorem emit_I (s : State) (e : OutEvent) : (s.emit e).I = s.I := rfl
@[simp] theorem emit_pc (s : State) (e : OutEvent) : (s.emit e).pc = s.pc := rfl
@[simp] theorem emit_stack (s : State) (e : OutEvent) : (s.emit e).stack = s.stack := rfl
@[simp] theorem emit_dt (s : State) (e : OutEvent) : (s.emit e).dt = s.dt := rfl
@[simp] theorem emit_st (s : State) (e : OutEvent) : (s.emit e).st = s.st := rfl
@[simp] theorem emit_mem (s : State) (e : OutEvent) : (s.emit e).mem = s.mem := rfl
@[simp] theorem emit_fb (s : State) (e : OutEvent) : (s.emit e).fb = s.fb := rfl
@[simp] theorem emit_keys (s : State) (e : OutEvent) : (s.emit e).keys = s.keys := rfl
@[simp] theorem emit_run (s : State) (e : OutEvent) : (s.emit e).run = s.run := rfl
@[simp] theorem emit_ips (s : State) (e : OutEvent) : (s.emit e).ips = s.ips := rfl
@[simp] theorem emit_dirty (s : State) (e : OutEvent) : (s.emit e).dirty = s.dirty := rfl
@[simp] theorem emit_awaitKey (s : State) (e : OutEvent) : (s.emit e).awaitKey = s.awaitKey := rfl
@[simp] theorem emit_kq (s : State) (e : OutEvent) : (s.emit e).kq = s.kq := rfl
@[simp] theorem emit_fault (s : State) (e : OutEvent) : (s.emit e).fault = s.fault := rfl
@[simp] theorem emit_img (s : State) (e : OutEvent) : (s.emit e).img = s.img := rfl
@[simp] theorem emit_params (s : State) (e : OutEvent) : (s.emit e).params = s.params := rfl
@[simp] theorem emit_inputs (s : State) (e : OutEvent) : (s.emit e).inputs = s.inputs := rfl
@[simp] theorem emit_slotsLeft (s : State) (e : OutEvent) : (s.emit e).slotsLeft = s.slotsLeft := rfl
@[simp] theorem emit_out (s : State) (e : OutEvent) : (s.emit e).out = s.out ++ [e] := rfl
@[simp] theorem emit_draws (s : State) (e : OutEvent) : (s.emit e).draws = s.draws := rfl
@[simp] theorem emit_reg (s : State) (e : OutEvent) (r : Reg) : (s.emit e).reg r = s.reg r := rfl
@[simp] theorem emit_load (s : State) (e : OutEvent) (adr : Nat) : (s.emit e).load adr = s.load adr := rfl
@[simp] theorem emit_keyDown (s : State) (e : OutEvent) (key : KeyIndex) : (s.emit e).keyDown key = s.keyDown key := rfl

/-! ### raiseFault -/

@[simp] theorem raiseFault_v (s : State) (c : FaultCause) (f : FaultInfo) : (s.raiseFault c f).v = s.v := rfl
@[simp] theorem raiseFault_I (s : State) (c : FaultCause) (f : FaultInfo) : (s.raiseFault c f).I = s.I := rfl
@[simp] theorem raiseFault_pc (s : State) (c : FaultCause) (f : FaultInfo) : (s.raiseFault c f).pc = s.pc := rfl
@[simp] theorem raiseFault_stack (s : State) (c : FaultCause) (f : FaultInfo) : (s.raiseFault c f).stack = s.stack := rfl
@[simp] theorem raiseFault_dt (s : State) (c : FaultCause) (f : FaultInfo) : (s.raiseFault c f).dt = s.dt := rfl
@[simp] theorem raiseFault_st (s : State) (c : FaultCause) (f : FaultInfo) : (s.raiseFault c f).st = s.st := rfl
@[simp] theorem raiseFault_mem (s : State) (c : FaultCause) (f : FaultInfo) : (s.raiseFault c f).mem = s.mem := rfl
@[simp] theorem raiseFault_fb (s : State) (c : FaultCause) (f : FaultInfo) : (s.raiseFault c f).fb = s.fb := rfl
@[simp] theorem raiseFault_keys (s : State) (c : FaultCause) (f : FaultInfo) : (s.raiseFault c f).keys = s.keys := rfl
@[simp] theorem raiseFault_run (s : State) (c : FaultCause) (f : FaultInfo) : (s.raiseFault c f).run = .stopped := rfl
@[simp] theorem raiseFault_ips (s : State) (c : FaultCause) (f : FaultInfo) : (s.raiseFault c f).ips = s.ips := rfl
@[simp] theorem raiseFault_dirty (s : State) (c : FaultCause) (f : FaultInfo) : (s.raiseFault c f).dirty = s.dirty := rfl
@[simp] theorem raiseFault_awaitKey (s : State) (c : FaultCause) (f : FaultInfo) : (s.raiseFault c f).awaitKey = s.awaitKey := rfl
@[simp] theorem raiseFault_kq (s : State) (c : FaultCause) (f : FaultInfo) : (s.raiseFault c f).kq = s.kq := rfl
@[simp] theorem raiseFault_fault (s : State) (c : FaultCause) (f : FaultInfo) : (s.raiseFault c f).fault = some ⟨c, s.pc, f⟩ := rfl
@[simp] theorem raiseFault_img (s : State) (c : FaultCause) (f : FaultInfo) : (s.raiseFault c f).img = s.img := rfl
@[simp] theorem raiseFault_params (s : State) (c : FaultCause) (f : FaultInfo) : (s.raiseFault c f).params = s.params := rfl
@[simp] theorem raiseFault_inputs (s : State) (c : FaultCause) (f : FaultInfo) : (s.raiseFault c f).inputs = s.inputs := rfl
@[simp] theorem raiseFault_slotsLeft (s : State) (c : FaultCause) (f : FaultInfo) : (s.raiseFault c f).slotsLeft = 0 := rfl
@[simp] theorem raiseFault_out (s : State) (c : FaultCause) (f : FaultInfo) : (s.raiseFault c f).out = s.out ++ [.error ⟨c, s.pc, f⟩] := rfl
@[simp] theorem raiseFault_draws (s : State) (c : FaultCause) (f : FaultInfo) : (s.raiseFault c f).draws = s.draws := rfl
@[simp] theorem raiseFault_reg (s : State) (c : FaultCause) (f : FaultInfo) (r : Reg) : (s.raiseFault c f).reg r = s.reg r := rfl
@[simp] theorem raiseFault_load (s : State) (c : FaultCause) (f : FaultInfo) (adr : Nat) : (s.raiseFault c f).load adr = s.load adr := rfl
@[simp] theorem raiseFault_keyDown (s : State) (c : FaultCause) (f : FaultInfo) (key : KeyIndex) : (s.raiseFault c f).keyDown key = s.keyDown key := rfl

/-! ### loadRegsUpTo -/

@[simp] theorem loadRegsUpTo_I (s : State) (x : Reg) : (s.loadRegsUpTo x).I = s.I := rfl
@[simp] theorem loadRegsUpTo_pc (s : State) (x : Reg) : (s.loadRegsUpTo x).pc = s.pc := rfl
@[simp] theorem loadRegsUpTo_stack (s : State) (x : Reg) : (s.loadRegsUpTo x).stack = s.stack := rfl
@[simp] theorem loadRegsUpTo_dt (s : State) (x : Reg) : (s.loadRegsUpTo x).dt = s.dt := rfl
@[simp] theorem loadRegsUpTo_st (s : State) (x : Reg) : (s.loadRegsUpTo x).st = s.st := rfl
@[simp] theorem loadRegsUpTo_mem (s : State) (x : Reg) : (s.loadRegsUpTo x).mem = s.mem := rfl
@[simp] theorem loadRegsUpTo_fb (s : State) (x : Reg) : (s.loadRegsUpTo x).fb = s.fb := rfl
@[simp] theorem loadRegsUpTo_keys (s : State) (x : Reg) : (s.loadRegsUpTo x).keys = s.keys := rfl
@[simp] theorem loadRegsUpTo_run (s : State) (x : Reg) : (s.loadRegsUpTo x).run = s.run := rfl
@[simp] theorem loadRegsUpTo_ips (s : State) (x : Reg) : (s.loadRegsUpTo x).ips = s.ips := rfl
@[simp] theorem loadRegsUpTo_dirty (s : State) (x : Reg) : (s.loadRegsUpTo x).dirty = s.dirty := rfl
@[simp] theorem loadRegsUpTo_awaitKey (s : State) (x : Reg) : (s.loadRegsUpTo x).awaitKey = s.awaitKey := rfl
@[simp] theorem loadRegsUpTo_kq (s : State) (x : Reg) : (s.loadRegsUpTo x).kq = s.kq := rfl
@[simp] theorem loadRegsUpTo_fault (s : State) (x : Reg) : (s.loadRegsUpTo x).fault = s.fault := rfl
@[simp] theorem loadRegsUpTo_img (s : State) (x : Reg) : (s.loadRegsUpTo x).img = s.img := rfl
@[simp] theorem loadRegsUpTo_params (s : State) (x : Reg) : (s.loadRegsUpTo x).params = s.params := rfl
@[simp] theorem loadRegsUpTo_inputs (s : State) (x : Reg) : (s.loadRegsUpTo x).inputs = s.inputs := rfl
@[simp] theorem loadRegsUpTo_slotsLeft (s : State) (x : Reg) : (s.loadRegsUpTo x).slotsLeft = s.slotsLeft := rfl
@[simp] theorem loadRegsUpTo_out (s : State) (x : Reg) : (s.loadRegsUpTo x).out = s.out := rfl
@[simp] theorem loadRegsUpTo_draws (s : State) (x : Reg) : (s.loadRegsUpTo x).draws = s.draws := rfl
@[simp] theorem loadRegsUpTo_load (s : State) (x : Reg) (adr : Nat) : (s.loadRegsUpTo x).load adr = s.load adr := rfl
@[simp] theorem loadRegsUpTo_keyDown (s : State) (x : Reg) (key : KeyIndex) : (s.loadRegsUpTo x).keyDown key = s.keyDown key := rfl

/-! ### withDrawing -/

@[simp] theorem withDrawing_v (s : State) (cv : Canvas) : (s.withDrawing cv).v = s.v.set VF.toNat (flagByte cv.hit) VF.isLt := rfl
@[simp] theorem withDrawing_I (s : State) (cv : Canvas) : (s.withDrawing cv).I = s.I := rfl
@[simp] theorem withDrawing_pc (s : State) (cv : Canvas) : (s.withDrawing cv).pc = s.pc := rfl
@[simp] theorem withDrawing_stack (s : State) (cv : Canvas) : (s.withDrawing cv).stack = s.stack := rfl
@[simp] theorem withDrawing_dt (s : State) (cv : Canvas) : (s.withDrawing cv).dt = s.dt := rfl
@[simp] theorem withDrawing_st (s : State) (cv : Canvas) : (s.withDrawing cv).st = s.st := rfl
@[simp] theorem withDrawing_mem (s : State) (cv : Canvas) : (s.withDrawing cv).mem = s.mem := rfl
@[simp] theorem withDrawing_fb (s : State) (cv : Canvas) : (s.withDrawing cv).fb = cv.fb := rfl
@[simp] theorem withDrawing_keys (s : State) (cv : Canvas) : (s.withDrawing cv).keys = s.keys := rfl
@[simp] theorem withDrawing_run (s : State) (cv : Canvas) : (s.withDrawing cv).run = s.run := rfl
@[simp] theorem withDrawing_ips (s : State) (cv : Canvas) : (s.withDrawing cv).ips = s.ips := rfl
@[simp] theorem withDrawing_dirty (s : State) (cv : Canvas) : (s.withDrawing cv).dirty = true := rfl
@[simp] theorem withDrawing_awaitKey (s : State) (cv : Canvas) : (s.withDrawing cv).awaitKey = s.awaitKey := rfl
@[simp] theorem withDrawing_kq (s : State) (cv : Canvas) : (s.withDrawing cv).kq = s.kq := rfl
@[simp] theorem withDrawing_fault (s : State) (cv : Canvas) : (s.withDrawing cv).fault = s.fault := rfl
@[simp] theorem withDrawing_img (s : State) (cv : Canvas) : (s.withDrawing cv).img = s.img := rfl
@[simp] theorem withDrawing_params (s : State) (cv : Canvas) : (s.withDrawing cv).params = s.params := rfl
@[simp] theorem withDrawing_inputs (s : State) (cv : Canvas) : (s.withDrawing cv).inputs = s.inputs := rfl
@[simp] theorem withDrawing_slotsLeft (s : State) (cv : Canvas) : (s.withDrawing cv).slotsLeft = s.slotsLeft := rfl
@[simp] theorem withDrawing_out (s : State) (cv : Canvas) : (s.withDrawing cv).out = s.out := rfl
@[simp] theorem withDrawing_draws (s : State) (cv : Canvas) : (s.withDrawing cv).draws = s.draws := rfl
@[simp] theorem withDrawing_load (s : State) (cv : Canvas) (adr : Nat) : (s.withDrawing cv).load adr = s.load adr := rfl
@[simp] theorem withDrawing_keyDown (s : State) (cv : Canvas) (key : KeyIndex) : (s.withDrawing cv).keyDown key = s.keyDown key := rfl

/-! ### drain -/

@[simp] theorem drain_v (s : State) : (s.drain).v = s.v := rfl
@[simp] theorem drain_I (s : State) : (s.drain).I = s.I := rfl
@[simp] theorem drain_pc (s : State) : (s.drain).pc = s.pc := rfl
@[simp] theorem drain_stack (s : State) : (s.drain).stack = s.stack := rfl
@[simp] theorem drain_dt (s : State) : (s.drain).dt = s.dt := rfl
@[simp] theorem drain_st (s : State) : (s.drain).st = s.st := rfl
@[simp] theorem drain_mem (s : State) : (s.drain).mem = s.mem := rfl
@[simp] theorem drain_fb (s : State) : (s.drain).fb = s.fb := rfl
@[simp] theorem drain_keys (s : State) : (s.drain).keys = s.kq.foldl applyKey s.keys := rfl
@[simp] theorem drain_run (s : State) : (s.drain).run = s.run := rfl
@[simp] theorem drain_ips (s : State) : (s.drain).ips = s.ips := rfl
@[simp] theorem drain_dirty (s : State) : (s.drain).dirty = s.dirty := rfl
@[simp] theorem drain_awaitKey (s : State) : (s.drain).awaitKey = s.awaitKey := rfl
@[simp] theorem drain_kq (s : State) : (s.drain).kq = [] := rfl
@[simp] theorem drain_fault (s : State) : (s.drain).fault = s.fault := rfl
@[simp] theorem drain_img (s : State) : (s.drain).img = s.img := rfl
@[simp] theorem drain_params (s : State) : (s.drain).params = s.params := rfl
@[simp] theorem drain_inputs (s : State) : (s.drain).inputs = s.inputs := rfl
@[simp] theorem drain_slotsLeft (s : State) : (s.drain).slotsLeft = s.slotsLeft := rfl
@[simp] theorem drain_out (s : State) : (s.drain).out = s.out := rfl
@[simp] theorem drain_draws (s : State) : (s.drain).draws = s.draws := rfl
@[simp] theorem drain_reg (s : State) (r : Reg) : (s.drain).reg r = s.reg r := rfl
@[simp] theorem drain_load (s : State) (adr : Nat) : (s.drain).load adr = s.load adr := rfl

/-! ### publish -/

@[simp] theorem publish_v (s : State) : (s.publish).v = s.v := rfl
@[simp] theorem publish_I (s : State) : (s.publish).I = s.I := rfl
@[simp] theorem publish_pc (s : State) : (s.publish).pc = s.pc := rfl
@[simp] theorem publish_stack (s : State) : (s.publish).stack = s.stack := rfl
@[simp] theorem publish_dt (s : State) : (s.publish).dt = s.dt := rfl
@[simp] theorem publish_st (s : State) : (s.publish).st = s.st := rfl
@[simp] theorem publish_mem (s : State) : (s.publish).mem = s.mem := rfl
@[simp] theorem publish_fb (s : State) : (s.publish).fb = s.fb := rfl
@[simp] theorem publish_keys (s : State) : (s.publish).keys = s.keys := rfl
@[simp] theorem publish_run (s : State) : (s.publish).run = s.run := rfl
@[simp] theorem publish_ips (s : State) : (s.publish).ips = s.ips := rfl
@[simp] theorem publish_dirty (s : State) : (s.publish).dirty = false := rfl
@[simp] theorem publish_awaitKey (s : State) : (s.publish).awaitKey = s.awaitKey := rfl
@[simp] theorem publish_kq (s : State) : (s.publish).kq = s.kq := rfl
@[simp] theorem publish_fault (s : State) : (s.publish).fault = s.fault := rfl
@[simp] theorem publish_img (s : State) : (s.publish).img = s.img := rfl
@[simp] theorem publish_params (s : State) : (s.publish).params = s.params := rfl
@[simp] theorem publish_inputs (s : State) : (s.publish).inputs = s.inputs := rfl
@[simp] theorem publish_slotsLeft (s : State) : (s.publish).slotsLeft = s.slotsLeft := rfl
@[simp] theorem publish_out (s : State) : (s.publish).out = s.out ++ [.frame s.fb] := rfl
@[simp] theorem publish_draws (s : State) : (s.publish).draws = s.draws := rfl
@[simp] theorem publish_reg (s : State) (r : Reg) : (s.publish).reg r = s.reg r := rfl
@[simp] theorem publish_load (s : State) (adr : Nat) : (s.publish).load adr = s.load adr := rfl
@[simp] theorem publish_keyDown (s : State) (key : KeyIndex) : (s.publish).keyDown key = s.keyDown key := rfl

end Sys2Proof.Machine.State
end

