-- ==== Sys2Proof/Laws/Memory.lean ====
section
/-! SUPPORT. The laws of memory: read after write, the canonical form kept by every operation, the bytes of
a built memory, and that the canonical form is determined by what it reads. -/

namespace Sys2Proof.Machine

variable {font : Font} {m : Memory} {a c : Nat} {b : Byte}

@[simp] theorem Mem.read_nil : Mem.read font [] a = Mem.blank font a := rfl

@[simp] theorem Mem.read_cons (x : Host.Cell) :
    Mem.read font (x :: m) a = if x.1 = a then x.2 else Mem.read font m a := rfl

/-- An address with no cell reads as the unlisted byte. -/
theorem Mem.read_of_absent (h : ∀ x ∈ m, x.1 ≠ a) : Mem.read font m a = Mem.blank font a := by
  induction m with
  | nil => rfl
  | cons x rest ih =>
    simp only [List.mem_cons, forall_eq_or_imp] at h
    simp [h.1, ih h.2]

theorem Mem.erase_absent : ∀ x ∈ Mem.erase m a, x.1 ≠ a := by
  intro x hx
  simpa using (List.mem_filter.mp hx).2

@[simp] theorem Mem.read_erase_same : Mem.read font (Mem.erase m a) a = Mem.blank font a :=
  Mem.read_of_absent Mem.erase_absent

theorem Mem.read_erase_other (h : c ≠ a) : Mem.read font (Mem.erase m a) c = Mem.read font m c := by
  induction m with
  | nil => rfl
  | cons x rest ih =>
    rw [Mem.erase, List.filter_cons]
    rw [Mem.erase] at ih
    by_cases hx : x.1 = a
    · simp [hx, ih, Ne.symm h]
    · simp [hx, ih]

theorem Mem.read_insert_same (h : ∀ x ∈ m, x.1 ≠ a) : Mem.read font (Mem.insert a b m) a = b := by
  induction m with
  | nil => simp [Mem.insert]
  | cons x rest ih =>
    simp only [List.mem_cons, forall_eq_or_imp] at h
    rw [Mem.insert]
    split
    · simp
    · simp [h.1, ih h.2]

theorem Mem.read_insert_other (h : c ≠ a) : Mem.read font (Mem.insert a b m) c = Mem.read font m c := by
  induction m with
  | nil => simp [Mem.insert, Ne.symm h]
  | cons x rest ih =>
    rw [Mem.insert]
    split
    · simp [Ne.symm h]
    · simp [ih]

/-- Read after write at the same address. -/
theorem Mem.read_write_same (h : a < Config.memBytes) : Mem.read font (Mem.write font m a b) a = b := by
  rw [Mem.write, if_neg (by omega)]
  split
  · simp_all
  · exact Mem.read_insert_same Mem.erase_absent

/-- A write leaves every other address alone. -/
theorem Mem.read_write_other (h : c ≠ a) :
    Mem.read font (Mem.write font m a b) c = Mem.read font m c := by
  rw [Mem.write]
  split
  · rfl
  · split
    · exact Mem.read_erase_other h
    · rw [Mem.read_insert_other h, Mem.read_erase_other h]

/-! ### The canonical form is kept -/

theorem Mem.wf_erase (h : Memory.wf font m) : Memory.wf font (Mem.erase m a) :=
  ⟨h.1.filter _, fun x hx => h.2 x (List.mem_filter.mp hx).1⟩

theorem Mem.mem_insert {x : Host.Cell} : x ∈ Mem.insert a b m ↔ x = (a, b) ∨ x ∈ m := by
  induction m with
  | nil => simp [Mem.insert]
  | cons y rest ih =>
    rw [Mem.insert]
    split
    · simp
    · simp only [List.mem_cons, ih]
      tauto

theorem Mem.wf_insert (h : Memory.wf font m) (hm : ∀ x ∈ m, x.1 ≠ a) (ha : a < Config.memBytes)
    (hb : b ≠ Mem.blank font a) : Memory.wf font (Mem.insert a b m) := by
  refine ⟨?_, fun x hx => ?_⟩
  · obtain ⟨hs, -⟩ := h
    induction m with
    | nil => simp [Mem.insert]
    | cons y rest ih =>
      simp only [List.mem_cons, forall_eq_or_imp] at hm
      rw [List.pairwise_cons] at hs
      rw [Mem.insert]
      split
      case isTrue hlt =>
        refine List.pairwise_cons.mpr ⟨fun x hx => ?_, List.pairwise_cons.mpr hs⟩
        rcases List.mem_cons.mp hx with rfl | hx
        · exact hlt
        · exact Nat.lt_trans hlt (hs.1 x hx)
      case isFalse hge =>
        refine List.pairwise_cons.mpr ⟨fun x hx => ?_, ih hm.2 hs.2⟩
        rcases Mem.mem_insert.mp hx with rfl | hx
        · exact lt_of_le_of_ne (Nat.le_of_not_lt hge) hm.1
        · exact hs.1 x hx
  · rcases Mem.mem_insert.mp hx with rfl | hx
    · exact ⟨ha, hb⟩
    · exact h.2 x hx

/-- A write keeps the canonical form. -/
theorem Mem.wf_write (h : Memory.wf font m) : Memory.wf font (Mem.write font m a b) := by
  rw [Mem.write]
  split
  · exact h
  · split
    · exact Mem.wf_erase h
    · exact Mem.wf_insert (Mem.wf_erase h) Mem.erase_absent (by omega) ‹_›

theorem Mem.wf_writeList (bs : List Byte) : ∀ {m a}, Memory.wf font m → Memory.wf font (Mem.writeList font m a bs) := by
  induction bs with
  | nil => exact fun h => h
  | cons b bs ih => exact fun h => ih (Mem.wf_write h)

/-! ### Runs of bytes -/

theorem Mem.read_writeList_outside (bs : List Byte) : ∀ {m a}, c < a ∨ a + bs.length ≤ c →
    Mem.read font (Mem.writeList font m a bs) c = Mem.read font m c := by
  induction bs with
  | nil => exact fun _ => rfl
  | cons b bs ih =>
    intro m a h
    rw [List.length_cons] at h
    rw [Mem.writeList, ih (by omega), Mem.read_write_other (by omega)]

theorem Mem.read_writeList_inside (bs : List Byte) : ∀ {m a} (j : Nat) (h : j < bs.length),
    a + bs.length ≤ Config.memBytes → Mem.read font (Mem.writeList font m a bs) (a + j) = bs[j] := by
  induction bs with
  | nil => exact fun j h => absurd h (Nat.not_lt_zero j)
  | cons b bs ih =>
    intro m a j h ha
    rw [List.length_cons] at h ha
    rw [Mem.writeList]
    cases j with
    | zero =>
      rw [Mem.read_writeList_outside bs (by omega)]
      exact Mem.read_write_same (by omega)
    | succ j =>
      rw [show a + (j + 1) = a + 1 + j by omega, ih j (by omega) (by omega)]
      rfl

theorem Mem.ofBytes_ge (bs : Bytes) : ∀ {a}, ∀ x ∈ Mem.ofBytes font a bs, a ≤ x.1 := by
  induction bs with
  | nil => intro a x hx; simp [Mem.ofBytes] at hx
  | cons b bs ih =>
    intro a x hx
    rw [Mem.ofBytes] at hx
    split at hx
    · exact Nat.le_of_succ_le (ih x hx)
    · rcases List.mem_cons.mp hx with rfl | hx
      · exact Nat.le_refl a
      · exact Nat.le_of_succ_le (ih x hx)

theorem Mem.read_ofBytes_inside (bs : Bytes) : ∀ {a} (j : Nat) (h : j < bs.length),
    Mem.read font (Mem.ofBytes font a bs) (a + j) = bs[j] := by
  induction bs with
  | nil => exact fun j h => absurd h (Nat.not_lt_zero j)
  | cons b bs ih =>
    intro a j h
    rw [List.length_cons] at h
    rw [Mem.ofBytes]
    cases j with
    | zero =>
      split
      case isTrue hb =>
        rw [Mem.read_of_absent fun x hx => ?_]
        · exact hb.symm
        · have := Mem.ofBytes_ge bs x hx
          omega
      case isFalse => simp
    | succ j =>
      have hr := ih (a := a + 1) j (by omega)
      rw [show a + 1 + j = a + (j + 1) by omega] at hr
      split
      · exact hr
      · simpa using hr

theorem Mem.read_ofBytes_outside (bs : Bytes) : ∀ {a}, c < a ∨ a + bs.length ≤ c →
    Mem.read font (Mem.ofBytes font a bs) c = Mem.blank font c := by
  induction bs with
  | nil => exact fun _ => rfl
  | cons b bs ih =>
    intro a h
    rw [List.length_cons] at h
    have hr := ih (a := a + 1) (by omega)
    rw [Mem.ofBytes]
    split
    · exact hr
    · simp [hr, show a ≠ c by omega]

/-- A memory built from bytes that fit is in canonical form. -/
theorem Mem.wf_ofBytes (bs : Bytes) : ∀ {a}, a + bs.length ≤ Config.memBytes →
    Memory.wf font (Mem.ofBytes font a bs) := by
  induction bs with
  | nil => exact fun _ => ⟨List.Pairwise.nil, fun x hx => by simp [Mem.ofBytes] at hx⟩
  | cons b bs ih =>
    intro a h
    rw [List.length_cons] at h
    have hw := ih (a := a + 1) (by omega)
    rw [Mem.ofBytes]
    split
    case isTrue => exact hw
    case isFalse hb =>
      refine ⟨List.pairwise_cons.mpr ⟨fun x hx => Mem.ofBytes_ge bs x hx, hw.1⟩, fun x hx => ?_⟩
      rcases List.mem_cons.mp hx with rfl | hx
      · exact ⟨by simp only; omega, hb⟩
      · exact hw.2 x hx

/-! ### The canonical form is unique -/

theorem Mem.mem_of_read_ne (h : Mem.read font m a ≠ Mem.blank font a) : (a, Mem.read font m a) ∈ m := by
  induction m with
  | nil => exact absurd rfl h
  | cons x rest ih =>
    rw [Mem.read_cons] at h ⊢
    split at h
    case isTrue hx =>
      rw [if_pos hx, ← hx]
      exact List.mem_cons_self
    case isFalse hx =>
      rw [if_neg hx]
      exact List.mem_cons_of_mem _ (ih h)

theorem Mem.read_of_mem (h : Memory.wf font m) {x : Host.Cell} (hx : x ∈ m) : Mem.read font m x.1 = x.2 := by
  obtain ⟨hs, -⟩ := h
  induction m with
  | nil => cases hx
  | cons y rest ih =>
    rw [List.pairwise_cons] at hs
    rcases List.mem_cons.mp hx with rfl | hx
    · simp
    · rw [Mem.read_cons, if_neg (Nat.ne_of_lt (hs.1 x hx)), ih hx hs.2]

/-- Two canonical memories that read the same everywhere are the same data. -/
theorem Mem.ext_of_wf {m' : Memory} (h : Memory.wf font m) (h' : Memory.wf font m')
    (hr : ∀ a, Mem.read font m a = Mem.read font m' a) : m = m' := by
  have sub : ∀ {p q : Memory}, Memory.wf font p → (∀ a, Mem.read font p a = Mem.read font q a) →
      ∀ x ∈ p, x ∈ q := by
    intro p q hp hpq x hx
    have hv := Mem.read_of_mem hp hx
    have hq : Mem.read font q x.1 ≠ Mem.blank font x.1 := by
      rw [← hpq, hv]
      exact (hp.2 x hx).2
    have := Mem.mem_of_read_ne hq
    rwa [← hpq, hv] at this
  refine List.Perm.eq_of_pairwise (le := fun x y : Host.Cell => x.1 < y.1) ?_ h.1 h'.1 ?_
  · exact fun x y _ _ hxy hyx => absurd hxy (Nat.lt_asymm hyx)
  · refine (List.perm_ext_iff_of_nodup ?_ ?_).mpr fun x => ⟨sub h hr x, sub h' (fun a => (hr a).symm) x⟩
    · exact h.1.imp (S := fun x y => x ≠ y) fun hxy e => by subst e; exact Nat.lt_irrefl _ hxy
    · exact h'.1.imp (S := fun x y => x ≠ y) fun hxy e => by subst e; exact Nat.lt_irrefl _ hxy

/-- An address outside 0x000 to 0xFFF reads as the unlisted byte of a canonical memory. -/
theorem Mem.read_beyond (h : Memory.wf font m) (ha : Config.memBytes ≤ a) :
    Mem.read font m a = Mem.blank font a :=
  Mem.read_of_absent fun x hx e => absurd (h.2 x hx).1 (by omega)

namespace State

variable {s : State}

theorem load_store_same (h : a < Config.memBytes) : (s.store a b).load a = b := Mem.read_write_same h

theorem load_store_other (h : c ≠ a) : (s.store a b).load c = s.load c := Mem.read_write_other h

theorem load_storeList_outside (bs : List Byte) (h : c < a ∨ a + bs.length ≤ c) :
    (s.storeList a bs).load c = s.load c := Mem.read_writeList_outside bs h

theorem load_storeList_inside (bs : List Byte) (j : Nat) (h : j < bs.length)
    (ha : a + bs.length ≤ Config.memBytes) : (s.storeList a bs).load (a + j) = bs[j] :=
  Mem.read_writeList_inside bs j h ha

/-! ### Registers -/

/-- A register after a register write. -/
theorem reg_setReg (x r : Reg) : (s.setReg x b).reg r = if r = x then b else s.reg r := by
  simp only [reg, setReg_v, Vector.getElem_set]
  by_cases h : r = x
  · simp [h]
  · rw [if_neg (fun e => h (BitVec.eq_of_toNat_eq e.symm)), if_neg h]

@[simp] theorem reg_setReg_same (x : Reg) : (s.setReg x b).reg x = b := by simp [reg_setReg]

theorem reg_setReg_other {x r : Reg} (h : r ≠ x) : (s.setReg x b).reg r = s.reg r := by simp [reg_setReg, h]

/-- A register after Fx65's load. -/
theorem reg_loadRegsUpTo (x r : Reg) :
    (s.loadRegsUpTo x).reg r = if r.toNat ≤ x.toNat then s.load (s.dataAddr r.toNat) else s.reg r := by
  simp [reg, loadRegsUpTo]

end State

/-- pc + k where the 16-bit sum exists. -/
theorem pcPlus_toNat {pc : Pc} {k : Nat} (h : pc.toNat + k < 0x10000) : (pcPlus pc k).toNat = pc.toNat + k := by
  rw [pcPlus, if_pos h, BitVec.toNat_ofNat, Nat.mod_eq_of_lt h]

end Sys2Proof.Machine
end

