-- ==== Sys2Proof/Laws/PerInstr.lean ====
section
/-! SUPPORT. The family RoundTrip: for each constructor, a well-formed instruction's word decodes to it. -/

namespace Sys2Proof.Laws.RoundTrip

/-- The word of a well-formed instruction decodes to the instruction. -/
def Statement (i : Instr) : Prop := i.wf = true → decodeWord (encode i) = i

theorem cls : Statement .cls := fun _ => by decide

theorem ret : Statement .ret := fun _ => by decide

theorem jp (nnn : Addr) : Statement (.jp nnn) := fun _ => by simp [encode, decodeWord]

theorem call (nnn : Addr) : Statement (.call nnn) := fun _ => by simp [encode, decodeWord]

theorem seImm (x : Reg) (kk : Byte) : Statement (.seImm x kk) := fun _ => by simp [encode, decodeWord]

theorem sneImm (x : Reg) (kk : Byte) : Statement (.sneImm x kk) := fun _ => by simp [encode, decodeWord]

theorem seReg (x : Reg) (y : Reg) : Statement (.seReg x y) := fun _ => by simp [encode, decodeWord]

theorem ldImm (x : Reg) (kk : Byte) : Statement (.ldImm x kk) := fun _ => by simp [encode, decodeWord]

theorem addImm (x : Reg) (kk : Byte) : Statement (.addImm x kk) := fun _ => by simp [encode, decodeWord]

theorem ldReg (x : Reg) (y : Reg) : Statement (.ldReg x y) := fun _ => by simp [encode, decodeWord, decodeGroup8]

theorem orReg (x : Reg) (y : Reg) : Statement (.orReg x y) := fun _ => by simp [encode, decodeWord, decodeGroup8]

theorem andReg (x : Reg) (y : Reg) : Statement (.andReg x y) := fun _ => by simp [encode, decodeWord, decodeGroup8]

theorem xorReg (x : Reg) (y : Reg) : Statement (.xorReg x y) := fun _ => by simp [encode, decodeWord, decodeGroup8]

theorem addReg (x : Reg) (y : Reg) : Statement (.addReg x y) := fun _ => by simp [encode, decodeWord, decodeGroup8]

theorem subReg (x : Reg) (y : Reg) : Statement (.subReg x y) := fun _ => by simp [encode, decodeWord, decodeGroup8]

theorem shr (x : Reg) (y : Reg) : Statement (.shr x y) := fun _ => by simp [encode, decodeWord, decodeGroup8]

theorem subn (x : Reg) (y : Reg) : Statement (.subn x y) := fun _ => by simp [encode, decodeWord, decodeGroup8]

theorem shl (x : Reg) (y : Reg) : Statement (.shl x y) := fun _ => by simp [encode, decodeWord, decodeGroup8]

theorem sneReg (x : Reg) (y : Reg) : Statement (.sneReg x y) := fun _ => by simp [encode, decodeWord]

theorem ldI (nnn : Addr) : Statement (.ldI nnn) := fun _ => by simp [encode, decodeWord]

theorem jpV0 (nnn : Addr) : Statement (.jpV0 nnn) := fun _ => by simp [encode, decodeWord]

theorem rnd (x : Reg) (kk : Byte) : Statement (.rnd x kk) := fun _ => by simp [encode, decodeWord]

theorem drw (x : Reg) (y : Reg) (n : BitVec 4) : Statement (.drw x y n) := fun _ => by simp [encode, decodeWord]

theorem skp (x : Reg) : Statement (.skp x) := fun _ => by simp [encode, decodeWord, decodeGroupE]

theorem sknp (x : Reg) : Statement (.sknp x) := fun _ => by simp [encode, decodeWord, decodeGroupE]

theorem ldVxDt (x : Reg) : Statement (.ldVxDt x) := fun _ => by simp [encode, decodeWord, decodeGroupF]

theorem ldVxK (x : Reg) : Statement (.ldVxK x) := fun _ => by simp [encode, decodeWord, decodeGroupF]

theorem ldDtVx (x : Reg) : Statement (.ldDtVx x) := fun _ => by simp [encode, decodeWord, decodeGroupF]

theorem ldStVx (x : Reg) : Statement (.ldStVx x) := fun _ => by simp [encode, decodeWord, decodeGroupF]

theorem addI (x : Reg) : Statement (.addI x) := fun _ => by simp [encode, decodeWord, decodeGroupF]

theorem ldF (x : Reg) : Statement (.ldF x) := fun _ => by simp [encode, decodeWord, decodeGroupF]

theorem ldB (x : Reg) : Statement (.ldB x) := fun _ => by simp [encode, decodeWord, decodeGroupF]

theorem storeRegs (x : Reg) : Statement (.storeRegs x) := fun _ => by simp [encode, decodeWord, decodeGroupF]

theorem loadRegs (x : Reg) : Statement (.loadRegs x) := fun _ => by simp [encode, decodeWord, decodeGroupF]

theorem dw (w : Word) : Statement (.dw w) := fun h => decodeWord_of_unrecognized w h

end Sys2Proof.Laws.RoundTrip
end

