-- ==== Sys2Proof/Laws/Exec.lean ====
section
/-! SUPPORT. What each shared operation of the meanings can do, and what every instruction keeps. -/

namespace Sys2Proof.Machine

open State

variable {s t : State}

/-! ### Flags (41_alu.md R130, R144) -/

@[simp] theorem flagByte_toNat (c : Bool) : (flagByte c).toNat = if c then 1 else 0 := by
  cases c <;> rfl

/-- The registers after a result and then VF: the flag in VF, the result in Vx unless Vx is VF. -/
theorem reg_resultThenFlag (x y r : Reg) (f : Byte → Byte → Byte) (g : Byte → Byte → Bool) :
    (s.resultThenFlag x y f g).reg r =
      if r = VF then flagByte (g (s.reg x) (s.reg y)) else if r = x then f (s.reg x) (s.reg y) else s.reg r := by
  simp [resultThenFlag, reg_setReg]

/-- The registers after VF and then the result, which reads VF as just written. -/
theorem reg_flagThenResult (x y r : Reg) (f : Byte → Byte → Byte) (g : Byte → Byte → Bool) :
    (s.flagThenResult x y f g).reg r =
      if r = x then
        f (if x = VF then flagByte (g (s.reg x) (s.reg y)) else s.reg x)
          (if y = VF then flagByte (g (s.reg x) (s.reg y)) else s.reg y)
      else if r = VF then flagByte (g (s.reg x) (s.reg y)) else s.reg r := by
  simp [flagThenResult, reg_setReg]

/-- A flag instruction writes registers only: its state is the old one with other register contents. -/
theorem resultThenFlag_eq (x y : Reg) (f : Byte → Byte → Byte) (g : Byte → Byte → Bool) :
    s.resultThenFlag x y f g = { s with v := (s.resultThenFlag x y f g).v } := rfl

theorem resultAndFlag_eq (x y : Reg) (f : Byte → Byte → Byte) (g : Byte → Byte → Bool) :
    s.resultAndFlag x y f g = { s with v := (s.resultAndFlag x y f g).v } := by
  cases h : s.params.vfOrder <;> simp only [resultAndFlag, h] <;> rfl

/-- Where neither operand is VF both orders leave the result in Vx and the flag in VF. -/
theorem reg_resultAndFlag_of_ne {x y : Reg} (hx : x ≠ VF) (hy : y ≠ VF) (r : Reg)
    (f : Byte → Byte → Byte) (g : Byte → Byte → Bool) :
    (s.resultAndFlag x y f g).reg r =
      if r = x then f (s.reg x) (s.reg y) else if r = VF then flagByte (g (s.reg x) (s.reg y)) else s.reg r := by
  cases h : s.params.vfOrder <;> simp only [resultAndFlag, h]
  · simp [reg_flagThenResult, hx, hy]
  · rw [reg_resultThenFlag]
    by_cases hr : r = x
    · simp [hr, hx]
    · simp [hr]

/-- A flag instruction writes Vx and VF only. -/
theorem reg_resultAndFlag_other {x y r : Reg} (hx : r ≠ x) (hf : r ≠ VF) (f : Byte → Byte → Byte)
    (g : Byte → Byte → Bool) : (s.resultAndFlag x y f g).reg r = s.reg r := by
  cases h : s.params.vfOrder <;> simp [resultAndFlag, h, reg_flagThenResult, reg_resultThenFlag, hx, hf]

/-! ### Checked data accesses (20_memory.md R64) -/

theorem checkData_of_le {w : Word} {a b : Nat} {e : State} (h : b ≤ 0xFFF) :
    s.checkData w a b e = .next e := by rw [checkData, if_neg (by omega)]

theorem checkData_of_gt {w : Word} {a b : Nat} {e : State} (h : 0xFFF < b) :
    s.checkData w a b e = .next (s.raiseFault .dataOutOfRange (.data w a b)) := by rw [checkData, if_pos h]

/-! ### Raised faults (60_exceptions.md R212) -/

/-- `raiseFault` is what `Raised` says. -/
theorem raised_raiseFault (c : FaultCause) (f : FaultInfo) : Raised c f s (s.raiseFault c f) :=
  ⟨rfl, rfl, rfl, rfl, fun p hp => by cases p <;> simp_all [Part.Same]⟩

/-! ### The canvas (43_display.md R171) -/

theorem Frame.pixel_flip (fb : Frame) {r c : Nat} (hr : r < 32) (hc : c < 64) (r' c' : Nat) :
    Frame.pixel (Frame.flip fb r c) r' c' = (Frame.pixel fb r' c' ^^ decide (r' = r ∧ c' = c)) := by
  rw [Frame.flip, dif_pos ⟨hr, hc⟩, Frame.pixel, Frame.pixel]
  by_cases h : r' < 32 ∧ c' < 64
  · rw [dif_pos h, dif_pos h]
    by_cases e : r = r'
    · subst e
      simp only [Vector.getElem_set_self, BitVec.getLsbD_xor, BitVec.getLsbD_twoPow, true_and]
      by_cases ec : c = c'
      · simp [ec, h.2]
      · simp [ec, Ne.symm ec]
    · simp [Vector.getElem_set_ne, e, Ne.symm e]
  · rw [dif_neg h, dif_neg h]
    have : ¬(r' = r ∧ c' = c) := fun e => h ⟨e.1 ▸ hr, e.2 ▸ hc⟩
    simp [this]

/-! ### Keys (44_input_timers.md R183; 10_state.md R37) -/

/-- No key is held: there is no least one. -/
theorem leastKey_eq_none (h : ∀ k : KeyIndex, s.keyDown k = false) : s.leastKey = none := by
  simp [leastKey, h]

/-- The least held key. -/
theorem leastKey_eq_some {k : KeyIndex} (h : s.keyDown k = true)
    (hl : ∀ j : KeyIndex, j.toNat < k.toNat → s.keyDown j = false) : s.leastKey = some k := by
  rw [leastKey, List.find?_eq_some_iff_getElem]
  have hk := k.isLt
  refine ⟨h, k.toNat, by simpa using hk, by simp, fun j hj => ?_⟩
  simp [hl (BitVec.ofNat 4 j) (by simp; omega)]

/-! ### What every instruction keeps -/

/-- What an instruction that completes leaves alone: K, KQ, IPS, IMG, the parameters, the host's events, and
the control state RUN, FAULT and the tick in progress. -/
structure Kept (s t : State) : Prop where
  keys : t.keys = s.keys
  kq : t.kq = s.kq
  ips : t.ips = s.ips
  img : t.img = s.img
  params : t.params = s.params
  inputs : t.inputs = s.inputs
  run : t.run = s.run
  fault : t.fault = s.fault
  slotsLeft : t.slotsLeft = s.slotsLeft

/-- An answer is a next state that keeps what an instruction keeps. -/
def Completes (s : State) (a : Answer) : Prop := ∃ t, a = .next t ∧ Kept s t

theorem Completes.intro {a : Answer} (t : State) (h : a = .next t) (k : Kept s t) : Completes s a := ⟨t, h, k⟩

theorem kept_advance {k : Nat} (h : Kept s t) : Kept s (t.advance k) := by
  obtain ⟨a, b, c, d, e, f, g, i, j⟩ := h
  exact ⟨a, b, c, d, e, f, g, i, j⟩

theorem kept_jump {p : Pc} : Kept s (s.jump p) := by constructor <;> rfl

theorem kept_setReg (x : Reg) (b : Byte) : Kept s (s.setReg x b) := by constructor <;> rfl

theorem kept_resultAndFlag (x y : Reg) (f : Byte → Byte → Byte) (g : Byte → Byte → Bool) :
    Kept s (s.resultAndFlag x y f g) := by
  rw [resultAndFlag_eq]
  constructor <;> rfl

theorem kept_withDrawing (cv : Canvas) : Kept s (s.withDrawing cv) := by constructor <;> rfl

theorem kept_storeList (a : Nat) (bs : List Byte) : Kept s (s.storeList a bs) := by constructor <;> rfl

theorem kept_loadRegsUpTo (x : Reg) : Kept s (s.loadRegsUpTo x) := by constructor <;> simp

theorem completes_checkData {w : Word} {a b : Nat} {e : State} (h : b ≤ 0xFFF) (k : Kept s e) :
    Completes s (s.checkData w a b e) := ⟨e, checkData_of_le h, k⟩

theorem execRet_completes : Completes s (execRet s) := by
  rw [execRet]
  split
  · exact ⟨_, rfl, kept_jump⟩
  · exact .intro _ rfl (by constructor <;> simp)

theorem execCall_completes (nnn : Addr) (h : s.params.stackCap ≠ some s.stack.length) :
    Completes s (execCall nnn s) := by
  have hf : s.stackFull = false := by simpa [stackFull] using h
  exact ⟨(s.push (pcPlus s.pc 2)).jump (nnn.setWidth 16), by simp [execCall, hf], by constructor <;> rfl⟩

theorem execDrw_completes (x y n : BitVec 4) (h : n = 0 ∨ s.I.toNat + n.toNat - 1 ≤ 0xFFF) :
    Completes s (execDrw x y n s) := by
  rw [execDrw]
  split
  case isTrue => exact ⟨_, rfl, kept_advance (kept_withDrawing _)⟩
  case isFalse hn =>
    have : n.toNat ≠ 0 := fun e => hn (BitVec.eq_of_toNat_eq e)
    have := h.resolve_left hn
    exact completes_checkData (by rw [dataAddr]; omega) (kept_advance (kept_withDrawing _))

/-- The key skip with a key index in range. -/
theorem skipOnKey_of_le {w : Word} {x : Reg} {taken : Bool → Bool} (h : (s.reg x).toNat ≤ 0xF) :
    s.skipOnKey w x taken = s.skipIf (taken (s.keyDown ((s.reg x).setWidth 4))) := by
  rw [skipOnKey, keyOperand, if_pos h]

/-- The key skip with a key index out of range. -/
theorem skipOnKey_of_gt {w : Word} {x : Reg} {taken : Bool → Bool} (h : 0xF < (s.reg x).toNat) :
    s.skipOnKey w x taken = s.raiseFault .keyIndexOutOfRange (.key w (s.reg x)) := by
  rw [skipOnKey, keyOperand, if_neg (by omega)]

theorem kept_refl : Kept s s := by constructor <;> rfl

theorem execLdVxK_completes (x : Reg) : Completes s (execLdVxK x s) := by
  rw [execLdVxK]
  split
  · exact ⟨_, rfl, kept_advance (kept_setReg _ _)⟩
  all_goals exact .intro _ rfl (by constructor <;> simp)

/-- Without its fault condition an instruction completes, and keeps what an instruction keeps. -/
theorem exec_completes (i : Instr) (h : faultCondition i s = none) : Completes s (exec i s) := by
  cases i <;> simp only [faultCondition, ite_eq_right_iff, reduceCtorEq, imp_false] at h
  case ret => exact execRet_completes
  case call nnn => exact execCall_completes nnn h
  case subReg x y => exact ⟨_, rfl, kept_advance (kept_resultAndFlag _ _ _ _)⟩
  case subn x y => exact ⟨_, rfl, kept_advance (kept_resultAndFlag _ _ _ _)⟩
  case shr x y => exact ⟨_, rfl, kept_advance (kept_resultAndFlag _ _ _ _)⟩
  case shl x y => exact ⟨_, rfl, kept_advance (kept_resultAndFlag _ _ _ _)⟩
  case drw x y n => exact execDrw_completes x y n (by
    by_cases hn : n = 0
    · exact .inl hn
    · have : n.toNat ≠ 0 := fun e => hn (BitVec.eq_of_toNat_eq e)
      exact .inr (by omega))
  case skp x =>
    exact ⟨s.skipIf _, by rw [exec, execSkp, skipOnKey_of_le (by omega)], kept_advance kept_refl⟩
  case sknp x =>
    exact ⟨s.skipIf _, by rw [exec, execSknp, skipOnKey_of_le (by omega)], kept_advance kept_refl⟩
  case ldVxK x => exact execLdVxK_completes x
  case ldB x => exact completes_checkData (by rw [dataAddr]; omega) (kept_advance (kept_storeList _ _))
  case storeRegs x => exact completes_checkData (by rw [dataAddr]; omega) (kept_advance (kept_storeList _ _))
  case loadRegs x => exact completes_checkData (by rw [dataAddr]; omega) (kept_advance (kept_loadRegsUpTo _))
  all_goals exact ⟨_, rfl, by constructor <;> rfl⟩

/-- With its fault condition an instruction raises that fault, and does nothing else. -/
theorem exec_faults (i : Instr) {c : FaultCause} {f : FaultInfo} (h : faultCondition i s = some (c, f)) :
    exec i s = .next (s.raiseFault c f) := by
  cases i <;> simp only [faultCondition, reduceCtorEq, Option.ite_none_right_eq_some, Option.some.injEq,
    Prod.mk.injEq] at h <;> obtain ⟨h, rfl, rfl⟩ := h
  case call nnn => rw [exec, execCall, stackFull, if_pos (by simp [h])]
  case drw x y n =>
    have : n ≠ 0 := fun e => by simp [e] at h
    rw [exec, execDrw, if_neg this, checkData_of_gt (by rw [dataAddr]; omega)]
    simp only [dataAddr, Nat.add_zero, Nat.add_sub_assoc h.1]
  case skp x => rw [exec, execSkp, skipOnKey_of_gt h]
  case sknp x => rw [exec, execSknp, skipOnKey_of_gt h]
  case ldB x => exact checkData_of_gt h
  case storeRegs x => exact checkData_of_gt h
  case loadRegs x => exact checkData_of_gt h

/-- What an instruction can answer: the fault of its condition, or a completed state. -/
theorem exec_cases (i : Instr) (s : State) :
    (∃ c f, faultCondition i s = some (c, f) ∧ exec i s = .next (s.raiseFault c f)) ∨
    (faultCondition i s = none ∧ Completes s (exec i s)) := by
  cases h : faultCondition i s with
  | none => exact .inr ⟨rfl, exec_completes i h⟩
  | some p => exact .inl ⟨p.1, p.2, rfl, exec_faults i h⟩

/-! ### The y field an assembler fills -/

/-- What an instruction's line assembles to does what the instruction does (R89, R139, R141). -/
theorem exec_assembled {i j : Instr} (h : i.wf = true) (e : assemble (toAsm i) = some j) (s : State) :
    exec j s = exec i s := by
  rcases assemble_toAsm i h with e' | ⟨x, y, rfl, e'⟩ | ⟨x, y, rfl, e'⟩ <;> cases e.symm.trans e' <;> rfl

end Sys2Proof.Machine
end

