-- ==== Sys2Proof/Laws/Display.lean ====
section
/-! SUPPORT. What drawing does, pixel by pixel: which pixels a run of sprite bytes flips, and when a set bit
meets a set pixel. -/

namespace Sys2Proof.Machine

open State

/-- One more column of a range, away from its last column. -/
theorem inRow_succ {r row x0 n c : Nat} (e : ¬(r = row ∧ c = x0 + n)) :
    (r = row ∧ x0 ≤ c ∧ c < x0 + (n + 1)) ↔ (r = row ∧ x0 ≤ c ∧ c < x0 + n) := by omega

/-- The drawing of the first n bits of a sprite byte. -/
def Canvas.drawBits (cv : Canvas) (r x0 : Nat) (b : Byte) (n : Nat) : Canvas :=
  (List.range n).foldl (fun cv col => if b.getLsbD (7 - col) then cv.plot r (x0 + col) else cv) cv

theorem Canvas.drawRow_eq (cv : Canvas) (r x0 : Nat) (b : Byte) : cv.drawRow r x0 b = cv.drawBits r x0 b 8 := rfl

theorem Canvas.drawBits_succ (cv : Canvas) (r x0 : Nat) (b : Byte) (n : Nat) :
    cv.drawBits r x0 b (n + 1) =
      if b.getLsbD (7 - n) then (cv.drawBits r x0 b n).plot r (x0 + n) else cv.drawBits r x0 b n := by
  rw [drawBits, List.range_succ, List.foldl_append, List.foldl_cons, List.foldl_nil]
  rfl

/-- A pixel after the first n bits of a byte: flipped where a set bit lands. -/
theorem Canvas.pixel_drawBits (cv : Canvas) (row x0 : Nat) (b : Byte) (n r c : Nat) (hr : r < 32) (hc : c < 64) :
    Frame.pixel (cv.drawBits row x0 b n).fb r c =
      (Frame.pixel cv.fb r c ^^ (decide (r = row ∧ x0 ≤ c ∧ c < x0 + n) && b.getLsbD (7 - (c - x0)))) := by
  induction n with
  | zero => simp [drawBits, show ¬(r = row ∧ x0 ≤ c ∧ c < x0) by omega, -Bool.decide_and]
  | succ n ih =>
    rw [drawBits_succ]
    by_cases e : r = row ∧ c = x0 + n
    · obtain ⟨rfl, rfl⟩ := e
      split
      · rw [plot, if_pos ⟨hr, hc⟩, Frame.pixel_flip _ hr hc, ih]
        simp_all
      · rw [ih]
        simp_all
    · simp only [inRow_succ e]
      split
      · rw [plot]
        split
        case isTrue hg => rw [Frame.pixel_flip _ hg.1 hg.2, ih, decide_eq_false e, Bool.xor_false]
        case isFalse => exact ih
      · exact ih

/-- The first n bits of a byte meet a set pixel when one of them, set, lands on one. -/
theorem Canvas.hit_drawBits (cv : Canvas) (row x0 : Nat) (b : Byte) (n : Nat) :
    (cv.drawBits row x0 b n).hit = true ↔
      cv.hit = true ∨ ∃ c, row < 32 ∧ c < 64 ∧ x0 ≤ c ∧ c < x0 + n ∧
        b.getLsbD (7 - (c - x0)) = true ∧ Frame.pixel cv.fb row c = true := by
  induction n with
  | zero =>
    simp only [drawBits, List.range_zero, List.foldl_nil, Nat.add_zero]
    exact ⟨.inl, fun h => h.resolve_right fun ⟨c, _, _, h1, h2, _⟩ => absurd h1 (by omega)⟩
  | succ n ih =>
    rw [drawBits_succ]
    by_cases hn : row < 32 ∧ x0 + n < 64 ∧ b.getLsbD (7 - n) = true ∧ Frame.pixel cv.fb row (x0 + n) = true
    · obtain ⟨h1, h2, h3, h4⟩ := hn
      rw [if_pos h3, plot, if_pos ⟨h1, h2⟩]
      refine iff_of_true ?_ (.inr ⟨x0 + n, h1, h2, by omega, by omega, by simpa using h3, h4⟩)
      simp [pixel_drawBits cv row x0 b n _ _ h1 h2, h4]
    · have ext : (∃ c, row < 32 ∧ c < 64 ∧ x0 ≤ c ∧ c < x0 + (n + 1) ∧
            b.getLsbD (7 - (c - x0)) = true ∧ Frame.pixel cv.fb row c = true) ↔
          ∃ c, row < 32 ∧ c < 64 ∧ x0 ≤ c ∧ c < x0 + n ∧
            b.getLsbD (7 - (c - x0)) = true ∧ Frame.pixel cv.fb row c = true := by
        refine exists_congr fun c => ⟨?_, fun ⟨h1, h2, h3, h4, h5⟩ => ⟨h1, h2, h3, by omega, h5⟩⟩
        rintro ⟨h1, h2, h3, h4, h5, h6⟩
        refine ⟨h1, h2, h3, ?_, h5, h6⟩
        by_contra hc
        obtain rfl : c = x0 + n := by omega
        exact hn ⟨h1, h2, by simpa using h5, h6⟩
      rw [ext, ← ih]
      split
      case isTrue hb =>
        rw [plot]
        split
        case isTrue hg =>
          have hp : Frame.pixel cv.fb row (x0 + n) = false :=
            Bool.eq_false_iff.mpr fun hp => hn ⟨hg.1, hg.2, hb, hp⟩
          simp [pixel_drawBits cv row x0 b n _ _ hg.1 hg.2, hp]
        case isFalse => rfl
      case isFalse => rfl

/-- A pixel after a run of sprite bytes: flipped where a set bit lands. -/
theorem Canvas.pixel_drawRows (x0 : Nat) (bs : List Byte) : ∀ (cv : Canvas) (row r c : Nat), r < 32 → c < 64 →
    Frame.pixel (cv.drawRows row x0 bs).fb r c =
      (Frame.pixel cv.fb r c ^^ (decide (row ≤ r ∧ r < row + bs.length ∧ x0 ≤ c ∧ c < x0 + 8) &&
        (bs.getD (r - row) 0).getLsbD (7 - (c - x0)))) := by
  induction bs with
  | nil =>
    intro cv row r c _ _
    simp [drawRows, show ¬(row ≤ r ∧ r < row ∧ x0 ≤ c ∧ c < x0 + 8) by omega, -Bool.decide_and]
  | cons b bs ih =>
    intro cv row r c hr hc
    rw [drawRows, ih _ _ _ _ hr hc, drawRow_eq, pixel_drawBits _ _ _ _ _ _ _ hr hc]
    by_cases e : r = row
    · subst e
      simp [show ¬r + 1 ≤ r by omega]
    · by_cases g : row < r
      · simp [e, show r - row = r - (row + 1) + 1 by omega, show row ≤ r by omega, show row + 1 ≤ r by omega,
          show r < row + 1 + bs.length ↔ r < row + (bs.length + 1) by omega]
      · simp [e, show ¬row ≤ r by omega, show ¬row + 1 ≤ r by omega]

/-- A run of sprite bytes meets a set pixel when one of its set bits lands on one. -/
theorem Canvas.hit_drawRows (x0 : Nat) (bs : List Byte) : ∀ (cv : Canvas) (row : Nat),
    (cv.drawRows row x0 bs).hit = true ↔
      cv.hit = true ∨ ∃ r c, r < 32 ∧ c < 64 ∧ row ≤ r ∧ r < row + bs.length ∧ x0 ≤ c ∧ c < x0 + 8 ∧
        (bs.getD (r - row) 0).getLsbD (7 - (c - x0)) = true ∧ Frame.pixel cv.fb r c = true := by
  induction bs with
  | nil =>
    intro cv row
    simp only [drawRows, List.length_nil, Nat.add_zero]
    exact ⟨.inl, fun h => h.resolve_right fun ⟨r, c, _, _, h1, h2, _⟩ => absurd h1 (by omega)⟩
  | cons b bs ih =>
    intro cv row
    rw [drawRows, ih, drawRow_eq, hit_drawBits]
    constructor
    · rintro ((h | ⟨c, h1, h2, h3, h4, h5, h6⟩) | ⟨r, c, h1, h2, h3, h4, h5, h6, h7, h8⟩)
      · exact .inl h
      · exact .inr ⟨row, c, h1, h2, Nat.le_refl _, by simp, h3, h4, by simpa using h5, h6⟩
      · refine .inr ⟨r, c, h1, h2, by omega, by simp; omega, h5, h6, ?_, ?_⟩
        · rw [show r - row = r - (row + 1) + 1 by omega]
          simpa using h7
        · rw [pixel_drawBits _ _ _ _ _ _ _ h1 h2] at h8
          simpa [show ¬r = row by omega] using h8
    · rintro (h | ⟨r, c, h1, h2, h3, h4, h5, h6, h7, h8⟩)
      · exact .inl (.inl h)
      · by_cases e : r = row
        · subst e
          exact .inl (.inr ⟨c, h1, h2, h5, h6, by simpa using h7, h8⟩)
        · rw [List.length_cons] at h4
          refine .inr ⟨r, c, h1, h2, by omega, by omega, h5, h6, ?_, ?_⟩
          · rw [show r - row = r - (row + 1) + 1 by omega] at h7
            simpa using h7
          · rw [pixel_drawBits _ _ _ _ _ _ _ h1 h2]
            simpa [e] using h8

/-- Two frames with the same pixels are the same frame. -/
theorem Frame.ext_pixel {a b : Frame}
    (h : ∀ r c, r < 32 → c < 64 → Frame.pixel a r c = Frame.pixel b r c) : a = b := by
  refine Vector.ext fun i hi => BitVec.eq_of_getLsbD_eq fun j hj => ?_
  simpa [Frame.pixel, hi, hj] using h i j hi hj

end Sys2Proof.Machine
end

