-- ==== Sys2Proof/Laws/Slot.lean ====
section
/-! SUPPORT. What a slot, the end of a tick and a step can do, said once for all instructions. -/

namespace Sys2Proof.Machine

open State

variable {s t : State}

/-! ### Answers -/

@[simp] theorem Answer.andThen_next (u : State) (f : State → State) :
    Answer.andThen (.next u) f = .next (f u) := rfl

/-! ### Memory and stack under an instruction -/

/-- The two fields of the invariant that instructions write: memory in canonical form, the stack within the cap. -/
def Bounded (s : State) : Prop :=
  Memory.wf s.params.font s.mem ∧ ∀ n, s.params.stackCap = some n → s.stack.length ≤ n

/-- An instruction keeps memory in canonical form and the stack within the cap. -/
theorem exec_bounded (i : Instr) (h : Bounded s) (e : exec i s = .next t) : Bounded t := by
  have writes (a : Nat) (bs : List Byte) : Bounded (s.storeList a bs) := ⟨Mem.wf_writeList bs h.1, h.2⟩
  have checked {w : Word} {a b : Nat} {u : State} (hu : Bounded u) (e : s.checkData w a b u = .next t) :
      Bounded t := by
    rw [checkData] at e
    split at e <;> cases e
    · exact h
    · exact hu
  cases i
  case ret =>
    rw [exec, execRet] at e
    split at e <;> cases e
    · exact h
    · next p rest hs => exact ⟨h.1, fun n hn => by have := h.2 n hn; rw [hs, List.length_cons] at this; exact Nat.le_of_succ_le this⟩
  case call nnn =>
    rw [exec, execCall] at e
    split at e <;> cases e
    · exact h
    · next hf =>
      refine ⟨h.1, fun n hn => ?_⟩
      have := h.2 n hn
      have hne : s.stack.length ≠ n := fun e => hf (by simp [stackFull, show s.params.stackCap = some n from hn, e])
      simp only [jump_stack, push_stack, List.length_cons]
      omega
  case subReg x y => cases e; rw [nextInstr, resultAndFlag_eq]; exact h
  case subn x y => cases e; rw [nextInstr, resultAndFlag_eq]; exact h
  case shr x y => cases e; rw [nextInstr, resultAndFlag_eq]; exact h
  case shl x y => cases e; rw [nextInstr, resultAndFlag_eq]; exact h
  case drw x y n =>
    rw [exec, execDrw] at e
    split at e
    · cases e; exact h
    · exact checked (u := (s.withDrawing _).nextInstr) h e
  case skp x =>
    cases e
    rw [skipOnKey]
    split <;> exact h
  case sknp x =>
    cases e
    rw [skipOnKey]
    split <;> exact h
  case ldVxK x =>
    rw [exec, execLdVxK] at e
    split at e <;> cases e <;> exact h
  case ldB x => exact checked (u := (s.storeList _ _).nextInstr) (writes _ _) e
  case storeRegs x => exact checked (u := (s.storeList _ _).nextInstr) (writes _ _) e
  case loadRegs x =>
    refine checked (u := (s.loadRegsUpTo x).nextInstr) ⟨?_, ?_⟩ e
    · simpa [nextInstr] using h.1
    · simpa [nextInstr] using h.2
  all_goals cases e; exact h

/-! ### The key-event queue -/

/-- A key no event names is as it was after the queue is applied. -/
theorem foldl_applyKey_other {k : KeyIndex} (kq : List KeyEvent) : ∀ {keys : Vector Bool 16},
    (∀ e ∈ kq, e.key ≠ k) → (kq.foldl applyKey keys)[k.toNat] = keys[k.toNat] := by
  induction kq with
  | nil => exact fun _ => rfl
  | cons e rest ih =>
    intro keys h
    rw [List.forall_mem_cons] at h
    rw [List.foldl_cons, ih h.2, applyKey, Vector.getElem_set_ne]
    exact fun e' => h.1 (BitVec.eq_of_toNat_eq e')

/-- A queue without a key-down has none to list. -/
theorem downsOf_eq_nil {kq : List KeyEvent} (h : ∀ e ∈ kq, e.kind = .up) : downsOf kq = [] :=
  List.filterMap_eq_nil_iff.mpr fun e he => by simp [h e he]

/-- The first key-down of a queue. -/
theorem downsOf_append_down {before after : List KeyEvent} {k : KeyIndex} (h : ∀ e ∈ before, e.kind = .up) :
    downsOf (before ++ ⟨k, .down⟩ :: after) = k :: downsOf after := by
  rw [downsOf, List.filterMap_append]
  have := downsOf_eq_nil h
  rw [downsOf] at this
  rw [this]
  rfl

/-! ### A slot -/

/-- How a slot leaves the control state: as it was, or as a fault leaves it. -/
def ControlAfter (s t : State) : Prop :=
  (t.fault = s.fault ∧ t.run = s.run ∧ t.slotsLeft = s.slotsLeft) ∨
    (t.fault ≠ none ∧ t.run = .stopped ∧ t.slotsLeft = 0)

/-- What a slot can do: it always answers a next state, with KQ drained, IPS, IMG, the parameters and the
host's events kept, and the control state as it was or as a fault leaves it. -/
structure SlotDone (s t : State) : Prop where
  kq : t.kq = []
  ips : t.ips = s.ips
  img : t.img = s.img
  params : t.params = s.params
  inputs : t.inputs = s.inputs
  control : ControlAfter s t
  bounded : Bounded s → Bounded t

theorem exec_slotDone (i : Instr) (s : State) : ∃ t, exec i s.drain = .next t ∧ SlotDone s t := by
  rcases exec_cases i s.drain with ⟨c, f, -, e⟩ | ⟨-, t, e, k⟩
  · exact ⟨_, e, rfl, rfl, rfl, rfl, rfl, .inr ⟨by simp, rfl, rfl⟩, id⟩
  · exact ⟨t, e, k.kq, k.ips, k.img, k.params, k.inputs, .inl ⟨k.fault, k.run, k.slotsLeft⟩,
      fun h => exec_bounded (s := s.drain) i h e⟩

theorem slot_done (s : State) : ∃ t, slot s = .next t ∧ SlotDone s t := by
  rw [slot, drain_awaitKey]
  split
  · refine ⟨_, rfl, ?_⟩
    rw [keyWaitSlot]
    split <;> exact ⟨rfl, rfl, rfl, rfl, rfl, .inl ⟨rfl, rfl, rfl⟩, id⟩
  · rw [fetchExec]
    split
    · exact ⟨_, rfl, rfl, rfl, rfl, rfl, rfl, .inr ⟨by simp, rfl, rfl⟩, id⟩
    · exact exec_slotDone _ s

/-- A slot that fetches nothing but a fault-free word runs that word's instruction on the drained state. -/
theorem slot_eq_exec (ha : s.awaitKey = none) (hp : s.pc.toNat ≤ 0xFFE) :
    slot s = exec (decodeWord s.drain.fetchWord) s.drain := by
  rw [slot, drain_awaitKey, ha]
  exact if_neg (Nat.not_lt.mpr hp)

/-! ### The end of a tick -/

theorem timerStep_eq (s : State) :
    s.timerStep = { s with dt := s.timerStep.dt, st := s.timerStep.st, out := s.timerStep.out } := by
  unfold timerStep
  dsimp only
  split_ifs <;> rfl

/-- The end of a tick writes DT, ST, the events emitted and DIRTY only. -/
theorem tickEnd_eq (s : State) :
    s.tickEnd = { s with
      dt := s.tickEnd.dt, st := s.tickEnd.st, out := s.tickEnd.out, dirty := s.tickEnd.dirty } := by
  unfold tickEnd timerStep
  dsimp only
  split_ifs <;> rfl

/-- After a slot: nothing, or a tick's end, or its abandonment. -/
theorem afterSlot_cases (s : State) :
    s.afterSlot = s ∨ s.afterSlot = { s with slotsLeft := 0 } ∨ s.afterSlot = s.tickEnd := by
  rw [afterSlot]
  split
  · exact .inr (.inl rfl)
  · split
    · exact .inr (.inr rfl)
    · exact .inl rfl

/-! ### A step -/

/-- Between ticks the first event waiting is served. -/
theorem step_serves {r : Input} {rest : List Input} (h0 : s.slotsLeft = 0) (h : s.inputs = r :: rest) :
    step s = serve r { s with inputs := rest } := by
  rw [step, h, h0]
  cases r <;> rfl

/-- Between ticks with no event waiting, a tick begins. -/
theorem step_ticks (h0 : s.slotsLeft = 0) (h : s.inputs = []) : step s = tick s := by
  rw [step, h, h0]

/-- Inside a tick the next slot runs, unless a key event is posted first. -/
theorem step_runs_slot {k : Nat} (h : s.slotsLeft = k + 1) (hk : ∀ e rest, s.inputs ≠ .key e :: rest) :
    step s = tickSlot k s := by
  rw [step, h]
  split
  · exact absurd ‹_› (hk _ _)
  · next heq _ => cases heq; rfl
  · contradiction
  · contradiction

/-- A TICK while Running runs the first of CPT slots. -/
theorem tick_running (h : s.run = .running) : tick s = tickSlot (slotsPerTick s.ips - 1) s := by
  simp only [tick, h]

/-- Where a slot of a running tick is due, the step is that slot and what follows it. -/
theorem step_slotDue {u : State} (h : s.SlotDue u) : step s = Answer.andThen (slot u) afterSlot := by
  rcases h with ⟨k, h, hk, rfl⟩ | ⟨h0, hr, hi, rfl⟩ | ⟨rest, h0, hr, hi, rfl⟩
  · exact step_runs_slot h hk
  · exact (step_ticks h0 hi).trans (tick_running hr)
  · exact (step_serves h0 hi).trans (tick_running (s := { s with inputs := rest }) hr)

/-- A key event at the head of the waiting events is posted, inside a tick as much as between ticks. -/
theorem step_posts_key {e : KeyEvent} {rest : List Input} (h : s.inputs = .key e :: rest) :
    step s = serve (.key e) { s with inputs := rest } := by
  rw [step, h]

/-! ### Runs through the host's interface -/

section Runs

variable {M : Host.Core} {a b : M.State}

/-- A run whose first step answers a next state goes on from it. -/
theorem run_step {k : Nat} (h : M.step a = .next b) : M.run (k + 1) a = M.run k b := by
  rw [Host.Core.run, h]

/-- A run of one step is a step. -/
theorem run_one : M.run 1 a = M.step a := by
  rw [Host.Core.run]
  cases h : M.step a <;> rfl

/-- A run that has come to a next state goes on from it. -/
theorem run_append {j k : Nat} (h : M.run j a = .next b) : M.run (j + k) a = M.run k b := by
  induction j generalizing a with
  | zero =>
    cases h
    rw [Nat.zero_add]
  | succ j ih =>
    rw [Nat.succ_add]
    rw [Host.Core.run] at h ⊢
    cases e : M.step a with
    | next u =>
      rw [e] at h
      exact ih h
    | fault r =>
      rw [e] at h
      cases h
    | refused r =>
      rw [e] at h
      cases h

/-- A run that has stopped stays stopped. -/
theorem run_fault {j k : Nat} {r : M.Fault} (h : M.run j a = .fault r) : M.run (j + k) a = .fault r := by
  induction j generalizing a with
  | zero => cases h
  | succ j ih =>
    rw [Nat.succ_add]
    rw [Host.Core.run] at h ⊢
    cases e : M.step a with
    | next u =>
      rw [e] at h
      exact ih h
    | fault q =>
      rw [e] at h
      exact h
    | refused q =>
      rw [e] at h
      cases h

theorem run_refused {j k : Nat} {r : M.Refusal} (h : M.run j a = .refused r) : M.run (j + k) a = .refused r := by
  induction j generalizing a with
  | zero => cases h
  | succ j ih =>
    rw [Nat.succ_add]
    rw [Host.Core.run] at h ⊢
    cases e : M.step a with
    | next u =>
      rw [e] at h
      exact ih h
    | fault q =>
      rw [e] at h
      cases h
    | refused q =>
      rw [e] at h
      exact h

/-- The last step of a run. -/
theorem run_last {k : Nat} (h : M.run k a = .next b) : M.run (k + 1) a = M.step b := by
  rw [run_append h, run_one]

/-- A run that ends in a next state has gone through a next state after all but its last step. -/
theorem run_last_of_next {k : Nat} {c : M.State} (h : M.run (k + 1) a = .next c) :
    ∃ b, M.run k a = .next b ∧ M.step b = .next c := by
  cases e : M.run k a with
  | next b => exact ⟨b, rfl, (run_last e).symm.trans h⟩
  | fault r =>
    rw [run_fault e] at h
    cases h
  | refused r =>
    rw [run_refused e] at h
    cases h

end Runs

end Sys2Proof.Machine
end

