-- ==== Sys2Proof/Tests/Slice0.lean ====
section
/-! SUPPORT. Tests. Words are written out bit by bit from the patterns of 30_encoding.md R82; expected results
are the vectors of spec/95_test_vectors.md (S, F, A, M, D, K, T, U, H and P numbers). The witnesses at the end
show, for every statement with hypotheses, values that meet them. -/

namespace Sys2Proof.Tests

open Sys2Proof Sys2Proof.Machine Sys2Proof.Machine.State

/-! ### Well-formedness: the one check refuses data words that are instructions -/

theorem test_wf_refuses_cls_as_data : Instr.wf (.dw 0x00E0) = false := by decide
theorem test_wf_refuses_call_as_data : Instr.wf (.dw 0x2ABC) = false := by decide
theorem test_wf_refuses_shr_as_data : Instr.wf (.dw 0x8126) = false := by decide
theorem test_wf_refuses_loadRegs_as_data : Instr.wf (.dw 0xFF65) = false := by decide
theorem test_wf_accepts_data : ([0x0000, 0x00E1, 0x5121, 0x8128, 0xE09F, 0xFFFF] : List Word).all
    (fun w => Instr.wf (.dw w)) = true := by decide

/-! ### Decoding: every constructor, word written out from its pattern -/

theorem test_decode_cls : decodeWord 0b0000000011100000#16 = .cls := by decide
theorem test_decode_ret : decodeWord 0b0000000011101110#16 = .ret := by decide
theorem test_decode_jp : decodeWord 0b0001101010111100#16 = .jp 0b101010111100#12 := by decide
theorem test_decode_call : decodeWord 0b0010001000010010#16 = .call 0b001000010010#12 := by decide
theorem test_decode_seImm : decodeWord 0b0011001101000010#16 = .seImm 0b0011#4 0b01000010#8 := by decide
theorem test_decode_sneImm : decodeWord 0b0100001101000010#16 = .sneImm 0b0011#4 0b01000010#8 := by decide
theorem test_decode_seReg : decodeWord 0b0101000100100000#16 = .seReg 0b0001#4 0b0010#4 := by decide
theorem test_decode_ldImm : decodeWord 0b0110101000101111#16 = .ldImm 0b1010#4 0b00101111#8 := by decide
theorem test_decode_addImm : decodeWord 0b0111000000000010#16 = .addImm 0b0000#4 0b00000010#8 := by decide
theorem test_decode_ldReg : decodeWord 0b1000000101010000#16 = .ldReg 0b0001#4 0b0101#4 := by decide
theorem test_decode_orReg : decodeWord 0b1000000100100001#16 = .orReg 0b0001#4 0b0010#4 := by decide
theorem test_decode_andReg : decodeWord 0b1000000100100010#16 = .andReg 0b0001#4 0b0010#4 := by decide
theorem test_decode_xorReg : decodeWord 0b1000000100100011#16 = .xorReg 0b0001#4 0b0010#4 := by decide
theorem test_decode_addReg : decodeWord 0b1000000100100100#16 = .addReg 0b0001#4 0b0010#4 := by decide
theorem test_decode_subReg : decodeWord 0b1000000100100101#16 = .subReg 0b0001#4 0b0010#4 := by decide
theorem test_decode_shr : decodeWord 0b1000001000110110#16 = .shr 0b0010#4 0b0011#4 := by decide
theorem test_decode_subn : decodeWord 0b1000000100100111#16 = .subn 0b0001#4 0b0010#4 := by decide
theorem test_decode_shl : decodeWord 0b1000001100001110#16 = .shl 0b0011#4 0b0000#4 := by decide
theorem test_decode_sneReg : decodeWord 0b1001000100100000#16 = .sneReg 0b0001#4 0b0010#4 := by decide
theorem test_decode_ldI : decodeWord 0b1010001011110000#16 = .ldI 0b001011110000#12 := by decide
theorem test_decode_jpV0 : decodeWord 0b1011001100000000#16 = .jpV0 0b001100000000#12 := by decide
theorem test_decode_rnd : decodeWord 0b1100010000001111#16 = .rnd 0b0100#4 0b00001111#8 := by decide
theorem test_decode_drw : decodeWord 0b1101000100100101#16 = .drw 0b0001#4 0b0010#4 0b0101#4 := by decide
theorem test_decode_skp : decodeWord 0b1110010110011110#16 = .skp 0b0101#4 := by decide
theorem test_decode_sknp : decodeWord 0b1110010110100001#16 = .sknp 0b0101#4 := by decide
theorem test_decode_ldVxDt : decodeWord 0b1111001000000111#16 = .ldVxDt 0b0010#4 := by decide
theorem test_decode_ldVxK : decodeWord 0b1111001100001010#16 = .ldVxK 0b0011#4 := by decide
theorem test_decode_ldDtVx : decodeWord 0b1111001000010101#16 = .ldDtVx 0b0010#4 := by decide
theorem test_decode_ldStVx : decodeWord 0b1111001000011000#16 = .ldStVx 0b0010#4 := by decide
theorem test_decode_addI : decodeWord 0b1111000100011110#16 = .addI 0b0001#4 := by decide
theorem test_decode_ldF : decodeWord 0b1111011100101001#16 = .ldF 0b0111#4 := by decide
theorem test_decode_ldB : decodeWord 0b1111001000110011#16 = .ldB 0b0010#4 := by decide
theorem test_decode_storeRegs : decodeWord 0b1111001001010101#16 = .storeRegs 0b0010#4 := by decide
theorem test_decode_loadRegs : decodeWord 0b1111001001100101#16 = .loadRegs 0b0010#4 := by decide
theorem test_decode_dw : decodeWord 0b0101000100100001#16 = .dw 0b0101000100100001#16 := by decide

/-- R87: the near misses of every group are data. -/
theorem test_decode_near_misses :
    ([0x00E1, 0x0123, 0x512F, 0x9121, 0x8008, 0x800F, 0xE09F, 0xE0A0, 0xF008, 0xF0FF] : List Word).all
      (fun w => decodeWord w == .dw w) = true := by decide

/-- A table word is laid out high byte first. -/
theorem test_decode_table_word : decodeTableWord 16 0x6A2F = some (.ldImm 0xA 0x2F) := by decide

/-! ### Assembler syntax: lines of the programs P1 to P6 beside their words, and rows of R89's table -/

theorem test_asm_program_lines :
    ([(0x6005, "LD V0, 05"), (0x1204, "JP 204"), (0xA300, "LD I, 300"), (0xF265, "LD V2, [I]"),
      (0xD121, "DRW V1, V2, 1"), (0xF207, "LD V2, DT"), (0xF30A, "LD V3, K")] : List (Word × String)).all
      (fun p => (toAsm (decodeWord p.1)).text == p.2) = true := by decide
theorem test_asm_table_rows :
    ([(0x00E0, "CLS"), (0xB123, "JP V0, 123"), (0xF51E, "ADD I, V5"), (0xF533, "LD B, V5"), (0x5121, "DW 5121")] :
      List (Word × String)).all (fun p => (toAsm (decodeWord p.1)).text == p.2) = true := by decide
/-- The y field a line leaves out is filled with 0. -/
theorem test_asm_fills_y : (assemble ⟨.shr, [.v 2]⟩).map encode = some 0x8206 ∧
    (assemble ⟨.shl, [.v 3]⟩).map encode = some 0x830E := by decide
/-- The offset register of Bnnn is V0 alone, and a word of the table is no data. -/
theorem test_asm_refuses : assemble ⟨.jp, [.v 1, .addr 0x300]⟩ = none ∧ assemble ⟨.dw, [.word 0x00E0]⟩ = none := by
  decide

/-! ### One step: the state after it -/

/-- A machine constructed at 60 instructions per second, so one slot a tick. -/
def fresh : State := State.constructed 60 Config.defaultParams

/-- The same with another setting. -/
def freshWith (p : Params) : State := State.constructed 60 p

def capped : Params := { Config.defaultParams with stackCap := some 16 }
def flagLast : Params := { Config.defaultParams with vfOrder := .flagLast }
def levelKeys : Params := { Config.defaultParams with keyWait := .level }
def stillTimers : Params := { Config.defaultParams with pausedTimers := false }

/-- The next state of an answer; `fresh` where there is none. -/
def next (a : Answer) : State :=
  match a with
  | .next t => t
  | .fault _ => fresh
  | .refused _ => fresh

/-- The state after one slot that fetches the word at the state's pc. -/
def ran (s : State) (w : Nat) : State := next (step (s.withFetchWord 16 w))

/-- D1 -/
theorem test_cls : let t := ran { fresh with fb := Vector.replicate 32 5, dirty := false } 0x00E0
    t.fb = Vector.replicate 32 0 ∧ t.dirty = true := by decide
/-- F16 -/
theorem test_ret : let t := ran { fresh with pc := 0x212, stack := [0x20C] } 0x00EE
    t.pc = 0x20C ∧ t.stack = [] := by decide
/-- F17 -/
theorem test_ret_empty : let t := ran { fresh with pc := 0x300 } 0x00EE
    t.pc = 0x200 ∧ t.out = [] := by decide
/-- F14 -/
theorem test_jp_odd : (ran { fresh with pc := 0x204 } 0x1205).pc = 0x205 := by decide
/-- F15 -/
theorem test_call : let t := ran { fresh with pc := 0x20A } 0x2212
    t.pc = 0x212 ∧ t.stack = [0x20C] := by decide
/-- F18 -/
theorem test_call_overflow :
    let t := ran { freshWith capped with pc := 0x250, stack := List.replicate 16 0x300 } 0x2300
    t.fault = some ⟨.stackOverflow, 0x250, .stack 0x2300 16⟩ ∧ t.run = .stopped ∧ t.pc = 0x250 ∧
      t.stack.length = 16 := by decide
/-- F1 and F2 -/
theorem test_seImm : (ran (fresh.setReg 3 0x42) 0x3342).pc = 0x204 ∧
    (ran (fresh.setReg 3 0x41) 0x3342).pc = 0x202 := by decide
/-- F3 and F4 -/
theorem test_sneImm : (ran (fresh.setReg 3 0x42) 0x4342).pc = 0x202 ∧ (ran fresh 0x4342).pc = 0x204 := by
  decide
/-- F5 and F6 -/
theorem test_seReg : (ran ((fresh.setReg 1 7).setReg 2 7) 0x5120).pc = 0x204 ∧
    (ran ((fresh.setReg 1 7).setReg 2 8) 0x5120).pc = 0x202 := by decide
/-- F7 and F8 -/
theorem test_sneReg : (ran ((fresh.setReg 1 7).setReg 2 8) 0x9120).pc = 0x204 ∧
    (ran ((fresh.setReg 1 7).setReg 2 7) 0x9120).pc = 0x202 := by decide
/-- F12: the skip leaves memory, and the next step faults -/
theorem test_skip_past_end : let t := ran { fresh with pc := 0xFFC } 0x3000
    t.pc = 0x1000 ∧ (next (step t)).fault = some ⟨.fetchOutOfRange, 0x1000, .fetch⟩ := by decide
/-- F22 -/
theorem test_jpV0_no_wrap : (ran (fresh.setReg 0 0xFF) 0xBFFF).pc = 0x10FE := by decide
/-- A1 -/
theorem test_ldImm : (ran fresh 0x6A2F).reg 0xA = 0x2F := by decide
/-- A2 -/
theorem test_addImm : let t := ran ((fresh.setReg 0 0xFF).setReg VF 0x55) 0x7002
    t.reg 0 = 0x01 ∧ t.reg VF = 0x55 := by decide
/-- A3 -/
theorem test_addImm_VF : (ran (fresh.setReg VF 0xFF) 0x7F01).reg VF = 0 := by decide
/-- A4 -/
theorem test_ldReg : (ran (fresh.setReg 5 9) 0x8150).reg 1 = 9 := by decide
/-- A5 -/
theorem test_orReg : let t := ran (((fresh.setReg 1 0x0F).setReg 2 0xF0).setReg VF 3) 0x8121
    t.reg 1 = 0xFF ∧ t.reg VF = 3 := by decide
/-- A6 -/
theorem test_andReg : (ran ((fresh.setReg 1 0x3C).setReg 2 0x0F) 0x8122).reg 1 = 0x0C := by decide
/-- A7 -/
theorem test_xorReg : (ran ((fresh.setReg 1 0x3C).setReg 2 0x0F) 0x8123).reg 1 = 0x33 := by decide
/-- A10 -/
theorem test_addReg_carry : let t := ran ((fresh.setReg 1 0x80).setReg 2 0x80) 0x8124
    t.reg 1 = 0 ∧ t.reg VF = 1 := by decide
/-- A12 -/
theorem test_addReg_VF : (ran ((fresh.setReg VF 0xF0).setReg 1 0x20) 0x8F14).reg VF = 1 := by decide
/-- A16, S2, 90_conflicts.md C2 -/
theorem test_subReg_equal : let t := ran ((fresh.setReg 1 5).setReg 2 5) 0x8125
    t.reg 1 = 0 ∧ t.reg VF = 0 := by decide
/-- A17, both orders -/
theorem test_subReg_VF : (ran ((fresh.setReg VF 5).setReg 1 3) 0x8F15).reg VF = 0xFE ∧
    (ran (((freshWith flagLast).setReg VF 5).setReg 1 3) 0x8F15).reg VF = 1 := by decide
/-- A22 -/
theorem test_shr_ignores_y : let t := ran ((fresh.setReg 2 5).setReg 3 0xFF) 0x8236
    t.reg 2 = 2 ∧ t.reg VF = 1 ∧ t.reg 3 = 0xFF := by decide
/-- A24, both orders -/
theorem test_shr_VF : (ran (fresh.setReg VF 3) 0x8F06).reg VF = 0 ∧
    (ran ((freshWith flagLast).setReg VF 3) 0x8F06).reg VF = 1 := by decide
/-- A26 -/
theorem test_subn : let t := ran ((fresh.setReg 1 5).setReg 2 3) 0x8127
    t.reg 1 = 0xFE ∧ t.reg VF = 0 := by decide
/-- A29, both orders -/
theorem test_subn_VF : (ran ((fresh.setReg 1 5).setReg VF 9) 0x81F7).reg 1 = 0xFC ∧
    (ran (((freshWith flagLast).setReg 1 5).setReg VF 9) 0x81F7).reg 1 = 4 := by decide
/-- A30 -/
theorem test_shl : let t := ran (fresh.setReg 3 0x81) 0x830E
    t.reg 3 = 2 ∧ t.reg VF = 1 := by decide
/-- A33, both orders -/
theorem test_shl_VF : (ran (fresh.setReg VF 0x81) 0x8F0E).reg VF = 2 ∧
    (ran ((freshWith flagLast).setReg VF 0x81) 0x8F0E).reg VF = 1 := by decide
/-- A34: whatever is drawn, if it is B7 then V4 is 07 -/
theorem test_rnd (h : Config.randomByte 0 = 0xB7) : (next (exec (.rnd 4 0x0F) fresh)).reg 4 = 0x07 := by
  change Config.randomByte 0 &&& 0x0F = 0x07
  rw [h]
  decide
/-- A35: any draw -/
theorem test_rnd_mask_zero : (next (exec (.rnd 4 0x00) fresh)).reg 4 = 0 :=
  BitVec.and_zero (x := Config.randomByte 0)
/-- M1 -/
theorem test_ldI : (ran fresh 0xA2F0).I = 0x2F0 := by decide
/-- M3 -/
theorem test_addI_wraps : let t := ran { (fresh.setReg 0 2).setReg VF 0x77 with I := 0xFFF } 0xF01E
    t.I = 0x001 ∧ t.reg VF = 0x77 := by decide
/-- M5 -/
theorem test_ldF : (ran (fresh.setReg 7 0x1F) 0xF729).I = 0x4B := by decide
/-- M8 -/
theorem test_ldB : (ran { fresh.setReg 2 255 with I := 0x300 } 0xF233).loadList 0x300 3 = [2, 5, 5] := by decide
/-- M11 -/
theorem test_ldB_out_of_range : let t := ran { fresh.setReg 2 9 with I := 0xFFE } 0xF233
    t.fault = some ⟨.dataOutOfRange, 0x200, .data 0xF233 0xFFE 0x1000⟩ ∧ t.load 0xFFE = 0 := by decide
/-- M12 -/
theorem test_storeRegs : let t := ran { (fresh.setReg 0 1).setReg 1 2 with I := 0x300 } 0xF155
    t.loadList 0x2FF 4 = [0, 1, 2, 0] ∧ t.I = 0x300 := by decide
/-- M14 -/
theorem test_storeRegs_out_of_range :
    let t := ran { ((fresh.setReg 0 1).setReg 1 1).setReg 2 1 with I := 0xFFE } 0xF255
    t.fault ≠ none ∧ t.loadList 0xFFE 2 = [0, 0] := by decide
/-- M16 -/
theorem test_loadRegs : let t := ran { fresh.storeList 0x300 [2, 3, 4, 5] with I := 0x300 } 0xF265
    t.regsUpTo 3 = [2, 3, 4, 0] ∧ t.I = 0x300 := by decide
/-- M18 -/
theorem test_loadRegs_out_of_range : let t := ran { fresh.setReg 0 7 with I := 0xFFF } 0xF165
    t.fault = some ⟨.dataOutOfRange, 0x200, .data 0xF165 0xFFF 0x1000⟩ ∧ t.reg 0 = 7 := by decide

/-- D3: clipped at column 63 and below row 31, no wrap -/
theorem test_drw_clips :
    let t := ran { ((fresh.setReg 1 60).setReg 2 31).store 0x300 0xFF with I := 0x300 } 0xD121
    t.fb = (Vector.replicate 32 0).set 31 0xF000000000000000 ∧ t.reg VF = 0 ∧ t.dirty = true := by decide
/-- D9: VF as the column is read before it is cleared -/
theorem test_drw_VF_column :
    let t := ran { ((fresh.setReg VF 5).setReg 1 2).store 0x300 0x80 with I := 0x300 } 0xDF11
    Frame.pixel t.fb 2 5 = true ∧ t.reg VF = 0 := by decide
/-- K1 and K2 -/
theorem test_skp : (ran { fresh.setReg 5 3 with keys := fresh.keys.set 3 true } 0xE59E).pc = 0x204 ∧
    (ran (fresh.setReg 5 3) 0xE59E).pc = 0x202 := by decide
/-- K5 -/
theorem test_skp_out_of_range : (ran (fresh.setReg 5 0x10) 0xE59E).fault =
    some ⟨.keyIndexOutOfRange, 0x200, .key 0xE59E 0x10⟩ := by decide
/-- K3 and K4 -/
theorem test_sknp : (ran (fresh.setReg 5 3) 0xE5A1).pc = 0x204 ∧
    (ran { fresh.setReg 5 3 with keys := fresh.keys.set 3 true } 0xE5A1).pc = 0x202 := by decide
/-- K15 -/
theorem test_ldVxDt : (ran { fresh with dt := 0x3C } 0xF207).reg 2 = 0x3C := by decide
/-- K12: under edge a held key does not end the wait -/
theorem test_ldVxK_edge : let t := ran { fresh with keys := fresh.keys.set 4 true } 0xF30A
    t.awaitKey = some 3 ∧ t.pc = 0x200 := by decide
/-- K13: under level the least held key is taken -/
theorem test_ldVxK_level :
    let t := ran { freshWith levelKeys with keys := (fresh.keys.set 4 true).set 6 true } 0xF30A
    t.reg 3 = 4 ∧ t.awaitKey = none ∧ t.pc = 0x202 := by decide
/-- K16 -/
theorem test_ldDtVx : (ran (fresh.setReg 2 5) 0xF215).dt = 5 := by decide
/-- K17 -/
theorem test_ldStVx : let t := ran (fresh.setReg 2 2) 0xF218
    t.st = 2 ∧ t.out = [] := by decide
/-- U1 -/
theorem test_dw : let t := ran { fresh with pc := 0x240 } 0x5121
    t.out = [.diag 0x240 0x5121] ∧ t.pc = 0x242 := by decide

/-! ### The sequencer and the host's requests -/

/-- K11: the first key queued wins; the wait ends without a fetch -/
theorem test_key_wait_slot :
    let t := next (slot { fresh with pc := 0x230, awaitKey := some 3, kq := [⟨9, .down⟩, ⟨2, .down⟩] })
    t.reg 3 = 9 ∧ t.awaitKey = none ∧ t.pc = 0x232 ∧ t.kq = [] := by decide
/-- K7: pressed and released in one drain reads as released -/
theorem test_drain_order :
    (ran { fresh.setReg 3 3 with kq := [⟨3, .down⟩, ⟨3, .up⟩] } 0xE39E).pc = 0x202 := by decide
/-- T3 and T4 -/
theorem test_beep : ({ fresh with st := 2 }.timerStep).out = [.beep] ∧
    ({ fresh with st := 1 }.timerStep).out = [] := by decide
/-- T6 and T7 -/
theorem test_slots_per_tick : slotsPerTick 700 = 11 ∧ slotsPerTick 59 = 1 ∧ slotsPerTick 0 = 1 := by decide
/-- T8 -/
theorem test_paused_tick : let t := next (step { freshWith stillTimers with run := .paused, dt := 5 })
    t.dt = 5 ∧ t.out = [.frame fresh.fb] ∧ t.dirty = false := by decide
/-- T9 -/
theorem test_single_step :
    let t := next (step { fresh.storeList 0x200 [0x60, 0x00] with dirty := false, dt := 5, inputs := [.step] })
    t.dt = 5 ∧ t.pc = 0x202 ∧ t.out = [.frame fresh.fb, .result .ok] ∧ t.run = .stopped := by decide
/-- P4's first tick: one slot, the timers, the frame that reset left to send -/
theorem test_running_tick :
    let t := next (step { fresh.storeList 0x200 [0x60, 0x02] with run := .running, dt := 1 })
    t.reg 0 = 2 ∧ t.dt = 0 ∧ t.out = [.frame fresh.fb] ∧ t.slotsLeft = 0 := by decide
/-- H1 -/
theorem test_save_while_running :
    (next (step { fresh with run := .running, inputs := [.save] })).out = [.result .usageError] := by decide
/-- H6: a load is no reset -/
theorem test_load_program : let t := next (step { fresh.setReg 0 9 with inputs := [.loadProgram [0x12, 0x00]] })
    t.reg 0 = 9 ∧ t.loadList 0x1FF 4 = [0, 0x12, 0, 0] ∧ t.img = [0x12, 0] ∧ t.out = [.result .ok] := by decide
/-- H7: reset rebuilds memory from IMG -/
theorem test_reset_request :
    let t := next (step { fresh.store 0x300 0x12 with img := [0xAA], inputs := [.reset], run := .paused })
    t.load 0x300 = 0 ∧ t.load 0x200 = 0xAA ∧ t.run = .paused := by decide
/-- P5's end: the fetch past memory faults and START is then refused (H2) -/
theorem test_fault_refuses_start :
    let t := next (step { fresh with run := .running, pc := 0x1000 })
    t.run = .stopped ∧ t.fault ≠ none ∧
      (next (step { t with inputs := [.start] })).out = t.out ++ [.result .usageError] := by decide
/-- M6: the font's first glyph is at address 0 -/
theorem test_font : fresh.loadList 0 5 = [0xF0, 0x90, 0x90, 0x90, 0xF0] := by decide

/-! ### Witnesses: values that meet the hypotheses of each statement, clause by clause, at the boundaries -/

theorem test_witness_DecodeOfEncode : Instr.wf (.drw 0xF 0xF 0xF) = true ∧ Instr.wf (.jp 0xFFF) = true ∧
    Instr.wf (.dw 0x0000) = true ∧ Instr.wf (.dw 0xFFFF) = true := by decide

theorem test_witness_DecodeSelectsTableRow : (⟨0xF00F, 0x800E⟩ : OpRow) ∈ opRows ∧
    OpRow.selects ⟨0xF00F, 0x800E⟩ 0x8FFE = true ∧ (opRows.all fun r => !r.selects 0x0000) = true := by decide

theorem test_witness_ReadReturnsLastWrite : 0 < 4096 ∧ 4095 < 4096 ∧ (4096 : Nat) ≠ 4095 := by decide

/-- An empty and a full image; the last address before it, the first after a short one. -/
theorem test_witness_InitMemContents : ([] : Bytes).length ≤ 3584 ∧ (List.replicate 3584 (1 : Byte)).length ≤ 3584 ∧
    3583 < (List.replicate 3584 (1 : Byte)).length ∧ (80 ≤ 80 ∧ 80 < 0x200) ∧ (80 ≤ 0x1FF ∧ 0x1FF < 0x200) ∧
    0x200 + ([7] : Bytes).length ≤ 0x201 := by
  rw [List.length_replicate]
  decide

theorem test_witness_ConstructionState : fresh = State.constructed 60 Config.defaultParams ∧ 80 ≤ 4095 := ⟨rfl, by decide⟩

theorem test_witness_ResetRequestState :
    let s := { fresh with run := .paused, img := [1, 2], inputs := [.reset, .start] }
    s.slotsLeft = 0 ∧ s.inputs = .reset :: [.start] ∧ s.run ≠ .running ∧ s.img.length ≤ 3584 ∧
      1 < s.img.length ∧ 0x200 + s.img.length ≤ 0x202 := by decide

/-- The longest image that is accepted and the shortest that is refused. -/
theorem test_witness_LoadProgramRequest :
    (List.replicate 3584 (1 : Byte)).length ≤ 3584 ∧ 3584 < (List.replicate 3585 (1 : Byte)).length ∧
    ({ fresh with inputs := [.loadProgram (List.replicate 3585 1)] } : State).run ≠ .running ∧
    ({ fresh with inputs := [.loadProgram (List.replicate 3585 1)] } : State).slotsLeft = 0 := by
  rw [List.length_replicate, List.length_replicate]
  refine ⟨by decide, by decide, by decide, by decide⟩

theorem test_witness_LoadThenReset :
    let s := { fresh with inputs := [.loadProgram [0x12, 0x00], .reset, .start] }
    s.slotsLeft = 0 ∧ s.inputs = .loadProgram [0x12, 0x00] :: .reset :: [.start] ∧ s.run ≠ .running ∧
      ([0x12, 0x00] : Bytes).length ≤ 3584 := by decide

/-- A running machine about to store two bytes meets the invariant. -/
def storing : State := { ((fresh.setReg 0 1).setReg 1 2).withFetchWord 16 0xF155 with I := 0x300 }

theorem test_witness_Inv : storing.Inv :=
  ⟨by decide, by decide, fun _ h => (by cases h), by decide⟩

theorem test_witness_StepKeepsInvariant : storing.Inv ∧ step storing = .next (next (step storing)) ∧
    (next (step storing)).load 0x301 = 2 := ⟨test_witness_Inv, rfl, by decide⟩

/-- The last address a word can be fetched from, in each of the four places a slot runs. -/
theorem test_witness_StepRunsDecodedInstruction :
    let s := { fresh.storeList 0xFFE [0x60, 0x05] with pc := 0xFFE }
    s.awaitKey = none ∧ s.pc.toNat ≤ 0xFFE ∧
    decode [s.load s.pc.toNat, s.load (s.pc.toNat + 1)] = .ok (.ldImm 0 5, []) ∧
    ({ s with run := .running, slotsLeft := 1 } : State).slotsLeft = 0 + 1 ∧
    ({ s with run := .running } : State).slotsLeft = 0 ∧
    ({ s with run := .running, inputs := [.tick] } : State).inputs = .tick :: [] ∧
    ({ s with inputs := [.step] } : State).run ≠ .running ∧ s.fault = none := by
  refine ⟨by decide, by decide, rfl, by decide, by decide, by decide, by decide, by decide⟩

theorem test_witness_FetchBeyondMemoryFaults : ({ fresh with pc := 0xFFF } : State).awaitKey = none ∧
    0xFFE < ({ fresh with pc := 0xFFF } : State).pc.toNat := by decide

theorem test_witness_DrainAppliesKeyEvents :
    let s := { fresh with kq := [⟨3, .down⟩, ⟨7, .down⟩, ⟨3, .up⟩] }
    (∀ e ∈ s.kq, e.key ≠ 5) ∧ s.kq = [⟨3, .down⟩, ⟨7, .down⟩] ++ ⟨3, .up⟩ :: [] ∧
      s.kq = [⟨3, .down⟩] ++ ⟨7, .down⟩ :: [⟨3, .up⟩] ∧ (∀ f ∈ ([⟨3, .up⟩] : List KeyEvent), f.key ≠ 7) := by decide

/-- Both modes, the wait ended and the wait going on. -/
theorem test_witness_KeyWaitSlotServesWait :
    let edge := { fresh with awaitKey := some 3, kq := [⟨1, .up⟩, ⟨0xF, .down⟩] }
    let level := { freshWith levelKeys with awaitKey := some 3, kq := [⟨0, .down⟩] }
    (edge.params.keyWait = .edge ∧ edge.kq = [⟨1, .up⟩] ++ ⟨0xF, .down⟩ :: [] ∧
      ∀ e ∈ ([⟨1, .up⟩] : List KeyEvent), e.kind = .up) ∧
    (level.params.keyWait = .level ∧ level.drain.keyDown 0 = true ∧
      ∀ j : KeyIndex, j.toNat < (0 : KeyIndex).toNat → level.drain.keyDown j = false) ∧
    (∀ e ∈ ({ edge with kq := [⟨7, .up⟩] } : State).kq, e.kind = .up) ∧
    (∀ j : KeyIndex, ({ level with kq := [] } : State).drain.keyDown j = false) := by decide

/-- Each row of the fault table at its boundary, and the other side of it. -/
theorem test_witness_FaultsExactlyByTable :
    (faultCondition (.ldB 0) { fresh with I := 0xFFE }).isSome = true ∧
    faultCondition (.ldB 0) { fresh with I := 0xFFD } = none ∧
    (faultCondition (.storeRegs 0xF) { fresh with I := 0xFF1 }).isSome = true ∧
    faultCondition (.storeRegs 0xF) { fresh with I := 0xFF0 } = none ∧
    (faultCondition (.loadRegs 1) { fresh with I := 0xFFF }).isSome = true ∧
    faultCondition (.loadRegs 0) { fresh with I := 0xFFF } = none ∧
    (faultCondition (.drw 0 0 2) { fresh with I := 0xFFF }).isSome = true ∧
    faultCondition (.drw 0 0 1) { fresh with I := 0xFFF } = none ∧
    (faultCondition (.skp 0) (fresh.setReg 0 0x10)).isSome = true ∧
    faultCondition (.sknp 0) (fresh.setReg 0 0xF) = none ∧
    (faultCondition (.call 0) { freshWith capped with stack := List.replicate 16 0 }).isSome = true ∧
    faultCondition (.call 0) { freshWith capped with stack := List.replicate 15 0 } = none ∧
    0xFFE < ({ fresh with pc := 0xFFF } : State).pc.toNat ∧ fresh.pc.toNat ≤ 0xFFE := by decide

/-- A fault in a slot inside a tick, in the only slot of a tick (one a tick at 60 a second), and in a single step. -/
theorem test_witness_FaultAbandonsTickAndPublish :
    let s := { fresh with run := .running, slotsLeft := 3, pc := 0xFFF, dt := 5 }
    let o := { fresh with run := .running, inputs := [.tick], pc := 0xFFF, dt := 5 }
    let u := { fresh with pc := 0xFFF, inputs := [.step] }
    s.SlotDue { s with slotsLeft := 2 } ∧
    slot { s with slotsLeft := 2 } = .next (next (slot { s with slotsLeft := 2 })) ∧
    (next (slot { s with slotsLeft := 2 })).fault ≠ none ∧
    o.SlotDue { o with slotsLeft := 0, inputs := [] } ∧
    slot { o with slotsLeft := 0, inputs := [] } = .next (next (slot { o with slotsLeft := 0, inputs := [] })) ∧
    (next (slot { o with slotsLeft := 0, inputs := [] })).fault ≠ none ∧
    u.slotsLeft = 0 ∧ u.run ≠ .running ∧ u.fault = none ∧
    slot { u with inputs := [] } = .next (next (slot { u with inputs := [] })) ∧
    (next (slot { u with inputs := [] })).fault ≠ none :=
  ⟨.inl ⟨2, rfl, nofun, rfl⟩, rfl, by decide, .inr (.inr ⟨[], rfl, rfl, rfl, rfl⟩), rfl, by decide, rfl, by decide,
    rfl, rfl, by decide⟩

theorem test_witness_FaultStaysLatched :
    let s := { fresh with fault := some ⟨.fetchOutOfRange, 0xFFF, .fetch⟩, inputs := [.reset] }
    s.faultedEnd ∧ step s = .next (next (step s)) ∧ (next (step s)).fault = none := by
  refine ⟨fun h => (by cases h), rfl, by decide⟩

theorem test_witness_StoppedMachineSeesNoTick : fresh.run = .stopped ∧ fresh.slotsLeft = 0 ∧ fresh.inputs = [] ∧
    ({ fresh with inputs := [.tick] } : State).inputs = .tick :: [] := by decide

theorem test_witness_ReturnPopsExactly : fresh.stack = [] ∧
    ({ fresh with stack := [0x1000, 0x20C] } : State).stack = 0x1000 :: [0x20C] := by decide

theorem test_witness_CallPushesReturnAddress :
    (freshWith capped).params.stackCap ≠ some ({ freshWith capped with stack := List.replicate 15 0 } : State).stack.length ∧
    (freshWith capped).params.stackCap = some ({ freshWith capped with stack := List.replicate 16 0 } : State).stack.length ∧
    ({ fresh with pc := 0xFFE } : State).pc.toNat + 2 < 0x10000 := by decide

theorem test_witness_AddSetsCarry : (0xE : Reg) ≠ VF := by decide

/-- Every combination of operands that are and are not VF, under both orders. -/
theorem test_witness_flags : (1 : Reg) ≠ VF ∧ (0xF : Reg) = VF ∧ fresh.params.vfOrder = .table ∧
    (freshWith flagLast).params.vfOrder = .flagLast := by decide

/-- SUB's and SUBN's equations on the boundary, equal operands. -/
theorem test_witness_SubtractAndFlag : 0 = (fresh.reg 1).toNat ∧ (0 : Nat) = if (fresh.reg 1).toNat < 0 then 1 else 0 := by
  decide

theorem test_witness_StoreBcd : ({ fresh with I := 0xFFD } : State).I.toNat ≤ 0xFFD ∧
    0xFFD < ({ fresh with I := 0xFFE } : State).I.toNat := by decide

theorem test_witness_StoreRegisters : ({ fresh with I := 0xFF0 } : State).I.toNat + (0xF : Reg).toNat ≤ 0xFFF ∧
    0xFFF < ({ fresh with I := 0xFF1 } : State).I.toNat + (0xF : Reg).toNat ∧ (0xF : Reg).toNat ≤ (0xF : Reg).toNat := by
  decide

theorem test_witness_LoadRegisters : ({ fresh with I := 0xFFF } : State).I.toNat + (0 : Reg).toNat ≤ 0xFFF ∧
    0xFFF < ({ fresh with I := 0xFFF } : State).I.toNat + (1 : Reg).toNat ∧ (0 : Reg).toNat < (1 : Reg).toNat := by decide

/-- In range at the last byte, out of range one row later, n = 0; a collision, and none. -/
theorem test_witness_DrawXorsClippedSprite :
    let s := { fresh.store 0xFFF 0x80 with I := 0xFFF, fb := (Vector.replicate 32 0).set 0 1 }
    s.I.toNat + (1 : BitVec 4).toNat - 1 ≤ 0xFFF ∧ 0xFFF < s.I.toNat + (2 : BitVec 4).toNat - 1 ∧
    Frame.pixel s.fb 0 0 = true ∧ spriteBit s 1 0 0 0 0 = true ∧
    (∀ r < 32, ∀ c < 64, Frame.pixel fresh.fb r c = true → spriteBit fresh 0 0 0 r c = false) := by
  refine ⟨by decide, by decide, by decide, by decide, fun r _ c _ h => ?_⟩
  simp [fresh, State.constructed, Frame.pixel] at h

theorem test_witness_DrawTwiceRestores :
    let s := { fresh.store 0x300 0x81 with I := 0x300 }
    (1 : Reg) ≠ VF ∧ (2 : Reg) ≠ VF ∧ s.I.toNat + (1 : BitVec 4).toNat - 1 ≤ 0xFFF ∧
    exec (.drw 1 2 1) s = .next (next (exec (.drw 1 2 1) s)) ∧
    exec (.drw 1 2 1) (next (exec (.drw 1 2 1) s)) = .next (next (exec (.drw 1 2 1) (next (exec (.drw 1 2 1) s)))) ∧
    spriteBit s 1 0 0 0 7 = true ∧ Frame.pixel s.fb 0 7 = false := by
  refine ⟨by decide, by decide, by decide, rfl, rfl, by decide, by decide⟩

theorem test_witness_KeySkips : fresh.keys[((fresh.setReg 0 0xF).reg 0).toNat]? = some false ∧
    0xF < ((fresh.setReg 0 0x10).reg 0).toNat := by decide

theorem test_witness_KeyWaitBegins : fresh.params.keyWait = .edge ∧
    (∀ k : KeyIndex, (freshWith levelKeys).keyDown k = false) ∧
    (let s := { freshWith levelKeys with keys := fresh.keys.set 0xF true }
     s.params.keyWait = .level ∧ s.keyDown 0xF = true ∧
       ∀ j : KeyIndex, j.toNat < (0xF : KeyIndex).toNat → s.keyDown j = false) := by decide

theorem test_witness_UnrecognizedWordRunsOn :
    let s := { fresh with pc := 0xFFE }
    s.pc.toNat ≤ 0xFFE ∧ ∀ r ∈ opRows, r.selects s.fetchWord = false := by decide

theorem test_witness_OnlyNamedRegistersWritten :
    exec (.loadRegs 0xE) fresh = .next (next (exec (.loadRegs 0xE) fresh)) ∧ VF ∉ regsWritten (.loadRegs 0xE) :=
  ⟨rfl, by decide⟩

theorem test_witness_OnlyNamedPartsWritten :
    exec (.addReg 1 2) fresh = .next (next (exec (.addReg 1 2) fresh)) ∧
    (Instr.addReg 1 2).row ∉ [⟨0xF000, 0xA000⟩, ⟨0xF0FF, 0xF01E⟩, ⟨0xF0FF, 0xF029⟩] ∧
    (Instr.addReg 1 2).row ∉ [⟨0xFFFF, 0x00EE⟩, ⟨0xF000, 0x2000⟩] ∧
    (Instr.addReg 1 2).row ∉ [⟨0xFFFF, 0x00E0⟩, ⟨0xF000, 0xD000⟩] ∧
    (Instr.addReg 1 2).row ∉ [⟨0xF0FF, 0xF033⟩, ⟨0xF0FF, 0xF055⟩] := by
  refine ⟨rfl, by decide, by decide, by decide, by decide⟩

theorem test_witness_PlainInstructionsAdvanceByTwo :
    exec (.ldB 1) fresh = .next (next (exec (.ldB 1) fresh)) ∧ faultCondition (.ldB 1) fresh = none ∧
    (Instr.ldB 1).row ∉ [⟨0xFFFF, 0x00EE⟩, ⟨0xF000, 0x1000⟩, ⟨0xF000, 0x2000⟩, ⟨0xF000, 0xB000⟩,
      ⟨0xF000, 0x3000⟩, ⟨0xF000, 0x4000⟩, ⟨0xF00F, 0x5000⟩, ⟨0xF00F, 0x9000⟩,
      ⟨0xF0FF, 0xE09E⟩, ⟨0xF0FF, 0xE0A1⟩, ⟨0xF0FF, 0xF00A⟩] := by
  refine ⟨rfl, by decide, by decide⟩

/-- Parked inside a tick, and before a tick of one slot. -/
theorem test_witness_ParkedMachineStaysParked :
    let s := fresh.withFetchWord 16 0x1200
    let o := { s with slotsLeft := 0 }
    s.parked ∧ s.run = .running ∧ s.SlotDue { s with slotsLeft := 1 } ∧
    o.parked ∧ o.run = .running ∧ o.SlotDue { o with slotsLeft := 0 } :=
  ⟨⟨by decide, by decide, by decide, by decide⟩, rfl, .inl ⟨1, rfl, nofun, rfl⟩,
    ⟨by decide, by decide, by decide, by decide⟩, rfl, .inr (.inl ⟨rfl, rfl, rfl, rfl⟩)⟩

/-- The last slot of a tick in progress, and the only slot of a tick, with and without a TICK waiting. -/
theorem test_witness_LastSlotEndsTick :
    let s := { fresh.withFetchWord 16 0x00E0 with slotsLeft := 1, st := 2 }
    let u := { s with slotsLeft := 0 }
    let w := { u with inputs := [.tick] }
    s.run = .running ∧ u.run = .running ∧ s.SlotDue u ∧ u.SlotDue u ∧ w.SlotDue u ∧ u.slotsLeft = 0 ∧
    slot u = .next (next (slot u)) ∧ (next (slot u)).fault = none :=
  ⟨rfl, rfl, .inl ⟨0, rfl, nofun, rfl⟩, .inr (.inl ⟨rfl, rfl, rfl, rfl⟩), .inr (.inr ⟨[], rfl, rfl, rfl, rfl⟩), rfl,
    rfl, by decide⟩

theorem test_witness_PausedTickRunsNoSlot :
    let s := { freshWith stillTimers with run := .paused }
    let w := { fresh with run := .paused, inputs := [.tick, .stop] }
    s.run = .paused ∧ s.slotsLeft = 0 ∧ s.inputs = [] ∧ s.params.pausedTimers = false ∧
      w.run = .paused ∧ w.slotsLeft = 0 ∧ w.inputs = .tick :: [.stop] ∧ w.params.pausedTimers = true := by decide

/-- Two slots a tick: after one step one slot is left, after two the tick is over. -/
theorem test_witness_RunningTickRunsCptSlots :
    let s := { fresh with run := .running, ips := 120 }
    s.run = .running ∧ s.slotsLeft = 0 ∧ s.inputs = [] ∧ s.fault = none ∧ 2 ≤ max 1 (s.ips / 60) ∧
    Host.Core.run Sys2Proof.core 1 s = .next (next (step s)) ∧ (next (step s)).fault = none ∧
    Host.Core.run Sys2Proof.core 2 s = .next (next (step (next (step s)))) ∧
    (next (step (next (step s)))).fault = none := by
  refine ⟨rfl, rfl, rfl, rfl, by decide, rfl, by decide, rfl, by decide⟩

theorem test_witness_RunControlRequests :
    ({ fresh with inputs := [.start] } : State).run = .stopped ∧ fresh.fault = none ∧ fresh.slotsLeft = 0 ∧
    ({ fresh with run := .paused, inputs := [.stop] } : State).run ≠ .stopped ∧
    ({ fresh with run := .running, inputs := [.togglePause] } : State).run ≠ .stopped ∧
    ({ fresh with inputs := [.setRate 700] } : State).inputs = .setRate 700 :: [] ∧
    ({ fresh with run := .running, slotsLeft := 1, inputs := [.key ⟨0xF, .down⟩] } : State).inputs =
      .key ⟨0xF, .down⟩ :: [] := by decide

theorem test_witness_RefusedRequestsChangeNothing :
    ({ fresh with run := .paused } : State).run ≠ .stopped ∧
    ({ fresh with fault := some ⟨.fetchOutOfRange, 0xFFF, .fetch⟩ } : State).fault ≠ none ∧
    fresh.run = .stopped ∧ ({ fresh with run := .running } : State).run = .running := by decide

theorem test_witness_SingleStepPublishes :
    let s := { fresh with inputs := [.step] }
    s.slotsLeft = 0 ∧ s.run ≠ .running ∧ s.fault = none ∧
    slot { s with inputs := [] } = .next (next (slot { s with inputs := [] })) ∧
    (next (slot { s with inputs := [] })).fault = none := by
  refine ⟨rfl, by decide, rfl, rfl, by decide⟩

theorem test_witness_RequestsWaitForTickEnd :
    let s := { fresh.withFetchWord 16 0x1200 with inputs := [.stop, .key ⟨1, .down⟩] }
    0 < s.slotsLeft ∧ s.inputs.head? = some .stop ∧ step s = .next (next (step s)) := by
  refine ⟨by decide, rfl, rfl⟩

theorem test_witness_SaveChangesNothing :
    let s := { fresh with run := .paused, inputs := [.save] }
    s.slotsLeft = 0 ∧ s.inputs = .save :: [] ∧ s.run ≠ .running ∧ s.Inv := by
  refine ⟨rfl, rfl, by decide, ⟨by decide, by decide, fun _ h => (by cases h), by decide⟩⟩

/-- A blob that decodes. -/
theorem test_witness_LoadSnapshot_decodes :
    fresh.codec.decode (fresh.codec.encode fresh.snapshot) = some fresh.snapshot :=
  fresh.codec.decode_encode _ (by decide)

/-- A blob that decodes to a record with a fault. -/
theorem test_witness_LoadSnapshot_faulted :
    let p := { fresh.snapshot with fault := some ⟨.fetchOutOfRange, 0xFFF, .fetch⟩ }
    fresh.codec.decode (fresh.codec.encode p) = some p ∧ p.fault ≠ none :=
  ⟨fresh.codec.decode_encode _ (by decide), nofun⟩

/-- A codec with a byte put before every blob: it keeps the two laws. -/
def marked {cap : Option Nat} (c : SnapshotCodec cap) : SnapshotCodec cap where
  encode p := 0 :: c.encode p
  decode b :=
    match b with
    | [] => none
    | _ :: rest => c.decode rest
  decode_encode := c.decode_encode
  decode_inRange b p h := by
    cases b with
    | nil => cases h
    | cons _ rest => exact c.decode_inRange rest p h

/-- A blob that does not decode, for a codec that keeps the two laws: which codec a machine has, and so which
blobs are malformed, the spec leaves open (R281). -/
theorem test_witness_LoadSnapshot_malformed : (marked (Config.snapshotCodec none)).decode [] = none := rfl

theorem test_witness_LoadOfSaveRestoresState : fresh.Inv ∧ fresh.slotsLeft = 0 ∧ fresh.run ≠ .running := by
  refine ⟨⟨by decide, by decide, fun _ h => (by cases h), by decide⟩, rfl, by decide⟩

end Sys2Proof.Tests
end

section
/-! SUPPORT. Every step answers a next state with the parameters it began with: the parts of a step in the
order they are built up (slot, tick, requests), then the step (00_scope.md R7; 60_exceptions.md R210 to R214). -/

namespace Sys2Proof.Machine

open State

variable {s : State}

/-! ### The operations around a slot keep the parameters -/

@[simp] theorem tickEnd_params (s : State) : s.tickEnd.params = s.params := by
  rw [tickEnd_eq]

@[simp] theorem afterSlot_params (s : State) : s.afterSlot.params = s.params := by
  rcases afterSlot_cases s with h | h | h <;> simp [h]

@[simp] theorem afterStep_params (s : State) : s.afterStep.params = s.params := by
  rw [afterStep]
  split <;> simp

/-! ### The requests keep the parameters -/

@[simp] theorem togglePause_params (s : State) : s.togglePause.params = s.params := by
  rw [togglePause]
  split <;> rfl

@[simp] theorem resetMachine_params (s : State) : s.resetMachine.params = s.params := rfl

@[simp] theorem restore_params (s : State) (p : Snapshot) : (s.restore p).params = s.params := rfl

@[simp] theorem save_params (s : State) : s.save.params = s.params := rfl

@[simp] theorem loadProgram_params (s : State) (image : Bytes) : (s.loadProgram image).params = s.params := by
  rw [loadProgram]
  split <;> simp

@[simp] theorem loadSnapshot_params (s : State) (blob : Bytes) : (s.loadSnapshot blob).params = s.params := by
  rw [loadSnapshot]
  split <;> simp

/-- A request keeps the parameters, taken or refused, where its effect does. -/
theorem request_params {effect : State} (accepted : Bool) (h : effect.params = s.params) :
    (s.request accepted effect).params = s.params := by
  rw [request]
  split
  · exact h
  · simp

/-! ### Answers that keep the parameters -/

/-- The answer is a next state with the parameters of `s`. -/
def AnswersWithParams (s : State) (a : Answer) : Prop := ∃ t, a = .next t ∧ t.params = s.params

theorem answers_next {t : State} (h : t.params = s.params) : AnswersWithParams s (.next t) := ⟨t, rfl, h⟩

theorem answers_andThen {a : Answer} {f : State → State} (hf : ∀ t, (f t).params = t.params)
    (h : AnswersWithParams s a) : AnswersWithParams s (a.andThen f) := by
  obtain ⟨t, rfl, ht⟩ := h
  exact answers_next ((hf t).trans ht)

/-- No instruction and no fault stops a slot. -/
theorem slot_answers (s : State) : AnswersWithParams s (slot s) := by
  obtain ⟨t, e, done⟩ := slot_done s
  exact ⟨t, e, done.params⟩

theorem tickSlot_answers (k : Nat) (s : State) : AnswersWithParams s (tickSlot k s) :=
  answers_andThen afterSlot_params (slot_answers { s with slotsLeft := k })

theorem tick_answers (s : State) : AnswersWithParams s (tick s) := by
  rw [tick]
  split
  case h_1 => exact tickSlot_answers _ s
  case h_2 => exact answers_next (tickEnd_params s)
  case h_3 => exact answers_next rfl

/-- A single step answers: a slot where it is accepted, USAGE_ERROR where it is not (R214, R232). -/
theorem serve_step_answers (s : State) : AnswersWithParams s (serve .step s) := by
  rw [serve]
  split
  · exact answers_andThen afterStep_params (slot_answers s)
  · exact answers_next rfl

/-- No event from the host or the timebase stops the model, whenever it comes (R214, R230). -/
theorem serve_answers (r : Input) (s : State) : AnswersWithParams s (serve r s) := by
  cases r with
  | tick => exact tick_answers s
  | step => exact serve_step_answers s
  | key e => exact answers_next rfl
  | setRate v => exact answers_next rfl
  | start => exact answers_next (request_params _ rfl)
  | stop => exact answers_next (request_params _ rfl)
  | togglePause => exact answers_next (request_params _ (by simp))
  | loadProgram image => exact answers_next (request_params _ (loadProgram_params s image))
  | reset => exact answers_next (request_params _ (resetMachine_params s))
  | save => exact answers_next (request_params _ (save_params s))
  | loadSnapshot blob => exact answers_next (request_params _ (loadSnapshot_params s blob))

/-- A step is an event served, a slot of the tick in progress, or a TICK from the timebase. -/
theorem step_answers (s : State) : AnswersWithParams s (step s) := by
  cases hk : s.slotsLeft with
  | zero =>
    cases hi : s.inputs with
    | nil =>
      rw [step_ticks hk hi]
      exact tick_answers s
    | cons r rest =>
      rw [step_serves hk hi]
      exact serve_answers r { s with inputs := rest }
  | succ k =>
    by_cases posted : ∃ e rest, s.inputs = .key e :: rest
    · obtain ⟨e, rest, hi⟩ := posted
      rw [step_posts_key hi]
      exact serve_answers (.key e) { s with inputs := rest }
    · rw [step_runs_slot hk fun e rest hi => posted ⟨e, rest, hi⟩]
      exact tickSlot_answers k s

/-- Settles O15: each kind of step answers with the parameters kept (`step_answers`), a slot because every
fault has a stated effect (`slot_done`). -/
theorem stepAlwaysAnswers : Obligations.StepAlwaysAnswers := by
  unfold Obligations.StepAlwaysAnswers
  exact step_answers

end Sys2Proof.Machine
end

section
/-! SUPPORT. The invariant: it holds at construction, and each kind of step keeps it, a slot, the end of a tick
and every request (10_state.md R27, R41, R60; 60_exceptions.md R212, R222; 70_reset_and_hazards.md R261, R284). -/

namespace Sys2Proof.Machine

open State

variable {s t : State}

/-- Settles O13: no memory cell, an empty image and stack, and no tick in progress. -/
theorem invariantAtConstruction : Obligations.InvariantAtConstruction := by
  unfold Obligations.InvariantAtConstruction
  have constructed (rate : Nat) (p : Params) : Inv (State.constructed rate p) :=
    ⟨⟨.nil, fun _ h => absurd h List.not_mem_nil⟩, Nat.zero_le _, fun _ _ => Nat.zero_le _,
      fun h => absurd h (Nat.lt_irrefl 0)⟩
  exact fun rate p => ⟨constructed rate p, constructed _ _⟩

/-! ### The invariant taken apart and put together -/

/-- Memory and stack of a state that meets the invariant. -/
theorem State.Inv.bounded : Inv s → Bounded s := fun ⟨hmem, _, hstack, _⟩ => ⟨hmem, hstack⟩

theorem State.Inv.img_le : Inv s → s.img.length ≤ Config.maxProgram := fun ⟨_, himg, _, _⟩ => himg

theorem State.Inv.running : Inv s → 0 < s.slotsLeft → s.run = .running := fun ⟨_, _, _, hrun⟩ => hrun

theorem inv_intro (hb : Bounded s) (hi : s.img.length ≤ Config.maxProgram)
    (hr : 0 < s.slotsLeft → s.run = .running) : Inv s := ⟨hb.1, hi, hb.2, hr⟩

/-- Between ticks RUN is free: only memory, stack and image are bounded. -/
theorem inv_of_slotsLeft_zero (h0 : s.slotsLeft = 0) (hb : Bounded s) (hi : s.img.length ≤ Config.maxProgram) :
    Inv s := inv_intro hb hi fun h => absurd h0 h.ne'

/-- An event sent out is no part of the invariant. -/
theorem inv_emit {e : OutEvent} (h : Inv s) : Inv (s.emit e) := h

/-! ### A slot and what follows it -/

/-- A slot keeps the invariant: a fault that stops the machine abandons the tick with it (R212). -/
theorem SlotDone.inv (d : SlotDone s t) (h : Inv s) : Inv t := by
  refine inv_intro (d.bounded h.bounded) (by rw [d.img]; exact h.img_le) fun hl => ?_
  rcases d.control with ⟨-, hrun, hleft⟩ | ⟨-, -, hleft⟩
  · rw [hrun]
    exact h.running (hleft ▸ hl)
  · exact absurd hleft hl.ne'

theorem inv_tickEnd (h : Inv s) : Inv s.tickEnd := by
  rw [tickEnd_eq]
  exact h

theorem inv_afterSlot (h : Inv s) : Inv s.afterSlot := by
  rcases afterSlot_cases s with e | e | e <;> rw [e]
  · exact h
  · exact inv_of_slotsLeft_zero rfl h.bounded h.img_le
  · exact inv_tickEnd h

theorem inv_afterStep (h : Inv s) : Inv s.afterStep := by
  rw [afterStep]
  split <;> exact h

/-! ### Answers that meet the invariant -/

/-- The next state, if the answer is one, meets the invariant. -/
def AnswersInv (a : Answer) : Prop := ∀ t, a = .next t → Inv t

theorem answersInv_next (h : Inv t) : AnswersInv (.next t) := by
  rintro u ⟨⟩
  exact h

/-- A slot followed by an operation that keeps the invariant. -/
theorem answersInv_slot_andThen {f : State → State} (hf : ∀ {u}, State.Inv u → State.Inv (f u)) (h : Inv s) :
    AnswersInv (Answer.andThen (slot s) f) := by
  obtain ⟨u, e, d⟩ := slot_done s
  rw [e, Answer.andThen_next]
  exact answersInv_next (hf (d.inv h))

/-- A slot of a running tick: the count it leaves is a tick in progress only while Running. -/
theorem tickSlot_inv (k : Nat) (h : Inv s) (hr : s.run = .running) : AnswersInv (tickSlot k s) :=
  answersInv_slot_andThen inv_afterSlot (s := { s with slotsLeft := k }) (inv_intro h.bounded h.img_le fun _ => hr)

theorem tick_inv (h : Inv s) : AnswersInv (tick s) := by
  rw [tick]
  split
  case h_1 hr => exact tickSlot_inv _ h hr
  case h_2 => exact answersInv_next (inv_tickEnd h)
  case h_3 => exact answersInv_next h

/-! ### Requests -/

/-- A request keeps the invariant, taken or refused, where its effect does. -/
theorem inv_request {accepted : Bool} {effect : State} (h : Inv s) (he : Inv effect) :
    Inv (s.request accepted effect) := by
  rw [request]
  split
  · exact he
  · exact inv_emit h

/-- A memory rebuilt from an image of at most 3584 bytes is in canonical form (R63). -/
theorem wf_initMem {font : Font} {img : Bytes} (h : img.length ≤ Config.maxProgram) :
    Memory.wf font (initMem font img) :=
  Mem.wf_ofBytes img (Nat.add_le_add_left h Config.loadAddr)

/-- A snapshot in range has an image that fits and a stack within the cap; its 4096 bytes build a memory in
canonical form (R283, R284). -/
theorem inv_restore {p : Snapshot} (h0 : s.slotsLeft = 0) (hp : p.inRange s.params.stackCap = true) :
    Inv (s.restore p) := by
  rw [Snapshot.inRange, Bool.and_eq_true, decide_eq_true_eq] at hp
  obtain ⟨himg, hstack⟩ := hp
  refine inv_of_slotsLeft_zero h0 ⟨Mem.wf_ofBytes _ (by simp), fun n hn => ?_⟩ himg
  have fits : p.stack.length ≤ n := by simpa [show s.params.stackCap = some n from hn] using hstack
  exact fits

section BetweenTicks

variable (h : Inv s) (h0 : s.slotsLeft = 0)
include h h0

theorem inv_togglePause : Inv s.togglePause := by
  rw [togglePause]
  split
  case h_3 => exact h
  all_goals exact inv_of_slotsLeft_zero h0 h.bounded h.img_le

/-- RESET empties the stack and rebuilds memory from IMG, which fits (R266). -/
theorem inv_resetMachine : Inv s.resetMachine :=
  inv_of_slotsLeft_zero h0 ⟨wf_initMem h.img_le, fun _ _ => Nat.zero_le _⟩ h.img_le

/-- An image that is latched fits (R261). -/
theorem inv_loadProgram (image : Bytes) : Inv (s.loadProgram image) := by
  rw [loadProgram]
  split
  case isTrue => exact inv_emit h
  case isFalse fits =>
    exact inv_of_slotsLeft_zero h0 ⟨wf_initMem (Nat.le_of_not_lt fits), h.bounded.2⟩ (Nat.le_of_not_lt fits)

/-- What a blob decodes to is in range, by the codec's second law (R281). -/
theorem inv_loadSnapshot (blob : Bytes) : Inv (s.loadSnapshot blob) := by
  rw [loadSnapshot]
  split
  case h_1 => exact inv_emit h
  case h_2 p hp => exact inv_emit (inv_restore h0 (s.codec.decode_inRange blob p hp))

/-- Every event from the host or the timebase keeps the invariant between ticks. -/
theorem serve_inv (r : Input) : AnswersInv (serve r s) := by
  cases r with
  | tick => exact tick_inv h
  | step =>
    rw [serve]
    split
    · exact answersInv_slot_andThen inv_afterStep h
    · exact answersInv_next (inv_emit h)
  | key e => exact answersInv_next h
  | setRate v => exact answersInv_next h
  | start => exact answersInv_next (inv_request h (inv_emit (inv_of_slotsLeft_zero h0 h.bounded h.img_le)))
  | stop => exact answersInv_next (inv_request h (inv_emit (inv_of_slotsLeft_zero h0 h.bounded h.img_le)))
  | togglePause => exact answersInv_next (inv_request h (inv_emit (inv_togglePause h h0)))
  | loadProgram image => exact answersInv_next (inv_request h (inv_loadProgram h h0 image))
  | reset => exact answersInv_next (inv_request h (inv_emit (inv_resetMachine h h0)))
  | save => exact answersInv_next (inv_request h (inv_emit (inv_emit h)))
  | loadSnapshot blob => exact answersInv_next (inv_request h (inv_loadSnapshot h h0 blob))

end BetweenTicks

/-! ### A step -/

/-- A step is an event served between ticks, a TICK from the timebase, a key event posted, or a slot of the
tick in progress. -/
theorem step_inv (h : Inv s) : AnswersInv (step s) := by
  cases hk : s.slotsLeft with
  | zero =>
    cases hi : s.inputs with
    | nil =>
      rw [step_ticks hk hi]
      exact tick_inv h
    | cons r rest =>
      rw [step_serves hk hi]
      exact serve_inv (s := { s with inputs := rest }) h hk r
  | succ k =>
    by_cases posted : ∃ e rest, s.inputs = .key e :: rest
    · obtain ⟨e, rest, hi⟩ := posted
      rw [step_posts_key hi]
      exact answersInv_next h
    · rw [step_runs_slot hk fun e rest hi => posted ⟨e, rest, hi⟩]
      exact tickSlot_inv k h (h.running (by omega))

/-- Settles O14, from what each kind of step keeps (`step_inv`). -/
theorem stepKeepsInvariant : Obligations.StepKeepsInvariant := by
  unfold Obligations.StepKeepsInvariant
  exact fun s t h e => step_inv h t e

end Sys2Proof.Machine
end

section
/-! SUPPORT. Frames: one rule per field says what a write of it changes, and how the rules compose along the
operations the meanings are written in (10_state.md). -/

namespace Sys2Proof.Machine

namespace State

variable {s t u : State} {ps qs : List Part}

/-! ### Composing frames -/

theorem same_trans {p : Part} (h : Part.Same s t p) (h' : Part.Same t u p) : Part.Same s u p := by
  cases p <;> simp_all [Part.Same]

/-- One change after another changes what either does. -/
theorem OnlyChanges.trans (h : OnlyChanges ps s t) (h' : OnlyChanges qs t u) : OnlyChanges (ps ++ qs) s u := by
  intro p hp
  rw [List.mem_append, not_or] at hp
  exact same_trans (h p hp.1) (h' p hp.2)

theorem OnlyChanges.mono (h : OnlyChanges ps s t) (hs : ∀ p ∈ ps, p ∈ qs) : OnlyChanges qs s t :=
  fun p hp => h p fun hm => hp (hs p hm)

/-! ### One rule per field -/

theorem onlyChanges_v (v : Vector Byte 16) : OnlyChanges [.regs] s { s with v := v } := by
  intro p hp
  cases p <;> simp_all [Part.Same, load]

theorem onlyChanges_I (a : Addr) : OnlyChanges [.index] s { s with I := a } := by
  intro p hp
  cases p <;> simp_all [Part.Same, load, reg]

theorem onlyChanges_pc (a : Pc) : OnlyChanges [.pc] s { s with pc := a } := by
  intro p hp
  cases p <;> simp_all [Part.Same, load, reg]

theorem onlyChanges_stack (l : List Pc) : OnlyChanges [.stack] s { s with stack := l } := by
  intro p hp
  cases p <;> simp_all [Part.Same, load, reg]

theorem onlyChanges_dt (b : Byte) : OnlyChanges [.dt] s { s with dt := b } := by
  intro p hp
  cases p <;> simp_all [Part.Same, load, reg]

theorem onlyChanges_st (b : Byte) : OnlyChanges [.st] s { s with st := b } := by
  intro p hp
  cases p <;> simp_all [Part.Same, load, reg]

theorem onlyChanges_mem (m : Memory) : OnlyChanges [.memory] s { s with mem := m } := by
  intro p hp
  cases p <;> simp_all [Part.Same, reg]

theorem onlyChanges_fb_dirty (fb : Frame) (d : Bool) :
    OnlyChanges [.pixels, .dirty] s { s with fb := fb, dirty := d } := by
  intro p hp
  cases p <;> simp_all [Part.Same, load, reg]

theorem onlyChanges_awaitKey (w : Option Reg) : OnlyChanges [.wait] s { s with awaitKey := w } := by
  intro p hp
  cases p <;> simp_all [Part.Same, load, reg]

theorem onlyChanges_draws (k : Nat) : OnlyChanges [.draws] s { s with draws := k } := by
  intro p hp
  cases p <;> simp_all [Part.Same, load, reg]

theorem onlyChanges_out (l : List OutEvent) : OnlyChanges [.outputs] s { s with out := l } := by
  intro p hp
  cases p <;> simp_all [Part.Same, load, reg]

theorem onlyChanges_run (r : RunState) : OnlyChanges [.run] s { s with run := r } := by
  intro p hp
  cases p <;> simp_all [Part.Same, load, reg]

theorem onlyChanges_ips (k : Nat) : OnlyChanges [.rate] s { s with ips := k } := by
  intro p hp
  cases p <;> simp_all [Part.Same, load, reg]

theorem onlyChanges_keys (v : Vector Bool 16) : OnlyChanges [.keys] s { s with keys := v } := by
  intro p hp
  cases p <;> simp_all [Part.Same, load, reg]

theorem onlyChanges_kq (l : List KeyEvent) : OnlyChanges [.queue] s { s with kq := l } := by
  intro p hp
  cases p <;> simp_all [Part.Same, load, reg]

theorem onlyChanges_inputs (l : List Input) : OnlyChanges [.inputs] s { s with inputs := l } := by
  intro p hp
  cases p <;> simp_all [Part.Same, load, reg]

/-! ### The operations of the meanings -/

/-- A change and then a move of pc. -/
theorem OnlyChanges.advance (h : OnlyChanges ps s t) (k : Nat) : OnlyChanges (ps ++ [.pc]) s (t.advance k) :=
  h.trans (onlyChanges_pc _)

theorem onlyChanges_advance (k : Nat) : OnlyChanges [.pc] s (s.advance k) := onlyChanges_pc _

theorem onlyChanges_setReg (x : Reg) (b : Byte) : OnlyChanges [.regs] s (s.setReg x b) := onlyChanges_v _

/-- A result and VF are registers, under either order (41_alu.md R130). -/
theorem onlyChanges_resultAndFlag (x y : Reg) (f : Byte → Byte → Byte) (g : Byte → Byte → Bool) :
    OnlyChanges [.regs] s (s.resultAndFlag x y f g) := by
  rw [resultAndFlag_eq]
  exact onlyChanges_v _

theorem onlyChanges_loadRegsUpTo (x : Reg) : OnlyChanges [.regs] s (s.loadRegsUpTo x) := onlyChanges_v _

theorem onlyChanges_storeList (a : Nat) (bs : List Byte) : OnlyChanges [.memory] s (s.storeList a bs) :=
  onlyChanges_mem _

theorem onlyChanges_withDrawing (cv : Canvas) : OnlyChanges [.regs, .pixels, .dirty] s (s.withDrawing cv) :=
  (onlyChanges_setReg VF (flagByte cv.hit)).trans (onlyChanges_fb_dirty _ _)

end State

end Sys2Proof.Machine
end

section
/-! SUPPORT. The parts of the state and the general registers each instruction writes, and where it leaves pc
(10_state.md R22 to R41). -/

namespace Sys2Proof.Machine

open State

variable {s t : State}

/-! ### The next state of an instruction that a fault condition guards -/

theorem exec_call_completed {nnn : Addr} (h : faultCondition (.call nnn) s = none) :
    exec (.call nnn) s = .next ((s.push (pcPlus s.pc 2)).jump (nnn.setWidth 16)) := by
  have hf : s.stackFull = false := by simpa [faultCondition, stackFull] using h
  simp [exec, execCall, hf]

/-- The fault condition of a draw, as R64 and R171 say it. -/
theorem faultCondition_drw_eq_none {x y n : BitVec 4} :
    faultCondition (.drw x y n) s = none ↔ n = 0 ∨ s.I.toNat + n.toNat - 1 ≤ 0xFFF := by
  have hz : n = 0 ↔ n.toNat = 0 := BitVec.toNat_inj.symm
  simp only [faultCondition, ite_eq_right_iff, reduceCtorEq, imp_false, hz]
  omega

theorem exec_drw_completed {x y n : BitVec 4} (h : faultCondition (.drw x y n) s = none) :
    exec (.drw x y n) s = .next (s.withDrawing (drawing x y n s)).nextInstr := by
  rw [exec, execDrw]
  split
  case isTrue => rfl
  case isFalse hn =>
    have inRange := (faultCondition_drw_eq_none.mp h).resolve_left hn
    have : n.toNat ≠ 0 := fun e => hn (BitVec.eq_of_toNat_eq e)
    exact checkData_of_le (by rw [dataAddr]; omega)

theorem exec_ldB_completed {x : Reg} (h : faultCondition (.ldB x) s = none) :
    exec (.ldB x) s = .next (s.storeList (s.dataAddr 0) (bcdDigits (s.reg x))).nextInstr :=
  checkData_of_le (by simpa [faultCondition, dataAddr] using h)

theorem exec_storeRegs_completed {x : Reg} (h : faultCondition (.storeRegs x) s = none) :
    exec (.storeRegs x) s = .next (s.storeList (s.dataAddr 0) (s.regsUpTo x)).nextInstr :=
  checkData_of_le (by simpa [faultCondition, dataAddr] using h)

theorem exec_loadRegs_completed {x : Reg} (h : faultCondition (.loadRegs x) s = none) :
    exec (.loadRegs x) s = .next (s.loadRegsUpTo x).nextInstr :=
  checkData_of_le (by simpa [faultCondition, dataAddr] using h)

/-! ### The parts each instruction writes -/

/-- The parts of the state an instruction that completes may write. -/
def partsWritten (i : Instr) : List Part :=
  match i with
  | .jp _ | .jpV0 _ | .seImm _ _ | .sneImm _ _ | .seReg _ _ | .sneReg _ _ | .skp _ | .sknp _ => [.pc]
  | .ret | .call _ => [.stack, .pc]
  | .ldImm _ _ | .addImm _ _ | .ldReg _ _ | .orReg _ _ | .andReg _ _ | .xorReg _ _ | .addReg _ _
  | .subReg _ _ | .shr _ _ | .subn _ _ | .shl _ _ | .ldVxDt _ | .loadRegs _ => [.regs, .pc]
  | .rnd _ _ => [.draws, .regs, .pc]
  | .ldVxK _ => [.regs, .wait, .pc]
  | .cls => [.pixels, .dirty, .pc]
  | .drw _ _ _ => [.regs, .pixels, .dirty, .pc]
  | .ldI _ | .addI _ | .ldF _ => [.index, .pc]
  | .ldDtVx _ => [.dt, .pc]
  | .ldStVx _ => [.st, .pc]
  | .ldB _ | .storeRegs _ => [.memory, .pc]
  | .dw _ => [.outputs, .pc]

/-- 00EE takes one entry off the stack, or none off an empty one (R110). -/
theorem execRet_frame (e : execRet s = .next t) : OnlyChanges [.stack, .pc] s t := by
  rw [execRet] at e
  split at e <;> cases e
  · exact (onlyChanges_pc _).mono (by simp)
  · next p rest _ => exact (onlyChanges_stack rest).trans (onlyChanges_pc p)

/-- Fx0A writes Vx at once or begins a wait, never both (R183). -/
theorem execLdVxK_frame {x : Reg} (e : execLdVxK x s = .next t) : OnlyChanges [.regs, .wait, .pc] s t := by
  rw [execLdVxK] at e
  split at e <;> cases e
  · exact ((onlyChanges_setReg _ _).advance 2).mono (by simp)
  all_goals exact (onlyChanges_awaitKey _).mono (by simp)

/-- An instruction that completes writes its parts alone. -/
theorem exec_completed_frame (i : Instr) (h : faultCondition i s = none) (e : exec i s = .next t) :
    OnlyChanges (partsWritten i) s t := by
  cases i
  case ret => exact execRet_frame e
  case ldVxK x => exact execLdVxK_frame e
  case call nnn =>
    cases (exec_call_completed h).symm.trans e
    exact (onlyChanges_stack _).trans (onlyChanges_pc _)
  case skp | sknp =>
    cases e
    rw [skipOnKey_of_le (by simpa [faultCondition] using h)]
    exact onlyChanges_advance _
  case drw x y n =>
    cases (exec_drw_completed h).symm.trans e
    exact (onlyChanges_withDrawing _).advance 2
  case ldB x =>
    cases (exec_ldB_completed h).symm.trans e
    exact (onlyChanges_storeList _ _).advance 2
  case storeRegs x =>
    cases (exec_storeRegs_completed h).symm.trans e
    exact (onlyChanges_storeList _ _).advance 2
  case loadRegs x =>
    cases (exec_loadRegs_completed h).symm.trans e
    exact (onlyChanges_loadRegsUpTo x).advance 2
  all_goals cases e
  case jp nnn => exact onlyChanges_pc _
  case jpV0 nnn => exact onlyChanges_pc _
  case seImm | sneImm | seReg | sneReg => exact onlyChanges_advance _
  case ldImm | addImm | ldReg | orReg | andReg | xorReg | ldVxDt => exact (onlyChanges_setReg _ _).advance 2
  case addReg x y => exact (onlyChanges_v (s.resultThenFlag x y _ _).v).advance 2
  case subReg | shr | subn | shl => exact (onlyChanges_resultAndFlag _ _ _ _).advance 2
  case rnd x kk => exact (onlyChanges_draws _).trans ((onlyChanges_setReg _ _).advance 2)
  case cls => exact (onlyChanges_fb_dirty _ _).advance 2
  case ldI | addI | ldF => exact (onlyChanges_I _).advance 2
  case ldDtVx x => exact (onlyChanges_dt _).advance 2
  case ldStVx x => exact (onlyChanges_st _).advance 2
  case dw w => exact (onlyChanges_out _).advance 2

/-- In every outcome a part stays as it was that neither a fault (60_exceptions.md R212) nor the instruction
writes. -/
theorem exec_same {i : Instr} (e : exec i s = .next t) {p : Part}
    (hf : p ∉ [Part.latch, .run, .tickLeft, .outputs]) (hp : p ∉ partsWritten i) : Part.Same s t p := by
  rcases exec_cases i s with ⟨c, f, -, e'⟩ | ⟨h, -⟩
  · cases e'.symm.trans e
    obtain ⟨-, -, -, -, rest⟩ := raised_raiseFault (s := s) c f
    exact rest p hf
  · exact exec_completed_frame i h e p hp

/-- Settles O47: an instruction whose row is not listed for a part does not write it (`exec_same`), and no
instruction writes the parts of the last clause. -/
theorem onlyNamedPartsWritten : Obligations.OnlyNamedPartsWritten := by
  unfold Obligations.OnlyNamedPartsWritten
  intro i s t e
  have noFault : ∀ p ∈ [Part.keys, .queue, .rate, .image, .params, .inputs],
      p ∉ [Part.latch, .run, .tickLeft, .outputs] := by decide
  have unwritten : ∀ p ∈ [Part.keys, .queue, .rate, .image, .params, .inputs], p ∉ partsWritten i := by
    cases i <;> simp [partsWritten]
  refine ⟨fun h => exec_same e (p := .index) (by decide) ?_, fun h => exec_same e (p := .stack) (by decide) ?_,
    fun h => exec_same e (p := .dt) (by decide) ?_, fun h => exec_same e (p := .st) (by decide) ?_,
    fun h => ⟨exec_same e (p := .pixels) (by decide) ?_, exec_same e (p := .dirty) (by decide) ?_⟩,
    fun h => exec_same e (p := .memory) (by decide) ?_, fun h => exec_same e (p := .wait) (by decide) ?_,
    fun p hp => exec_same e (noFault p hp) (unwritten p hp)⟩
  all_goals cases i <;> simp [partsWritten, Instr.row] at h ⊢

/-! ### The general registers each instruction writes (10_state.md R22) -/

/-- Fx0A writes Vx or nothing (R183). -/
theorem execLdVxK_regs {x : Reg} (e : execLdVxK x s = .next t) : RegsSameBut [x] s t := by
  rw [execLdVxK] at e
  split at e <;> cases e
  · exact fun r hr => reg_setReg_other (by simpa using hr)
  all_goals exact fun r _ => rfl

/-- An instruction that completes writes no register but those R22 names. -/
theorem exec_completed_regs (i : Instr) (h : faultCondition i s = none) (e : exec i s = .next t) :
    RegsSameBut (regsWritten i) s t := by
  intro r hr
  have unwritten (hp : .regs ∉ partsWritten i) : t.reg r = s.reg r := exec_completed_frame i h e .regs hp r
  cases i
  case ldVxK x => exact execLdVxK_regs e r hr
  case drw x y n =>
    cases (exec_drw_completed h).symm.trans e
    exact reg_setReg_other (by simpa [regsWritten] using hr)
  case loadRegs x =>
    cases (exec_loadRegs_completed h).symm.trans e
    have above : ¬r.toNat ≤ x.toNat := fun hle =>
      hr (List.mem_map.mpr ⟨r.toNat, List.mem_range.mpr (by omega), by simp⟩)
    rw [nextInstr_eq, advance_reg, reg_loadRegsUpTo, if_neg above]
  case ldImm | addImm | ldReg | orReg | andReg | xorReg | rnd | ldVxDt =>
    cases e
    exact reg_setReg_other (by simpa [regsWritten] using hr)
  case addReg x y =>
    cases e
    simp only [regsWritten, List.mem_cons, List.not_mem_nil, or_false, not_or] at hr
    rw [nextInstr_eq, advance_reg, reg_resultThenFlag, if_neg hr.2, if_neg hr.1]
  case subReg | shr | subn | shl =>
    cases e
    simp only [regsWritten, List.mem_cons, List.not_mem_nil, or_false, not_or] at hr
    exact reg_resultAndFlag_other hr.1 hr.2 _ _
  all_goals exact unwritten (by simp [partsWritten])

/-- Settles O46: a fault writes no register, and an instruction that completes only its own. -/
theorem onlyNamedRegistersWritten : Obligations.OnlyNamedRegistersWritten := by
  unfold Obligations.OnlyNamedRegistersWritten
  intro i s t e
  rcases exec_cases i s with ⟨c, f, -, e'⟩ | ⟨h, -⟩
  · cases e'.symm.trans e
    exact fun r _ => raiseFault_reg s c f r
  · exact exec_completed_regs i h e

/-! ### The program counter (10_state.md R26) -/

/-- pc after pc + 2, in the spec's arithmetic. -/
theorem pcMovedBy_of_pc_eq {k : Nat} (h : t.pc = pcPlus s.pc k) : PcMovedBy k s t :=
  fun hk => by rw [h, pcPlus_toNat hk]

/-- Settles O48: each remaining instruction ends with `nextInstr`, and writes no pc before it. -/
theorem plainInstructionsAdvanceByTwo : Obligations.PlainInstructionsAdvanceByTwo := by
  unfold Obligations.PlainInstructionsAdvanceByTwo
  intro i s t e h plain
  refine pcMovedBy_of_pc_eq ?_
  cases i
  case ret | jp | call | jpV0 | seImm | sneImm | seReg | sneReg | skp | sknp | ldVxK =>
    simp [Instr.row] at plain
  case drw x y n => cases (exec_drw_completed h).symm.trans e; rfl
  case ldB x => cases (exec_ldB_completed h).symm.trans e; rfl
  case storeRegs x => cases (exec_storeRegs_completed h).symm.trans e; rfl
  case loadRegs x => cases (exec_loadRegs_completed h).symm.trans e; rfl
  case subReg | shr | subn | shl =>
    cases e
    rw [resultAndFlag_eq]
    rfl
  all_goals cases e; rfl

end Sys2Proof.Machine
end

section
/-! SUPPORT. Run-control requests taken between ticks and key events posted: each answers one OK and changes what
it is for (60_exceptions.md R230, R231, R240). -/

namespace Sys2Proof.Machine

open State

variable {s t u : State} {rest : List Input} {ps : List Part}

/-! ### An event taken and answered -/

/-- From `s` the event before `rest` was taken and answered with OK, and changed no more than `ps`. -/
def AnsweredOk (rest : List Input) (ps : List Part) (s t : State) : Prop :=
  t.inputs = rest ∧ t.out = s.out ++ [.result .ok] ∧ OnlyChanges (ps ++ [.inputs, .outputs]) s t

/-- The reply to an effect that neither takes nor sends an event itself. -/
theorem answeredOk_reply (h : OnlyChanges ps { s with inputs := rest } u) (hi : .inputs ∉ ps) (ho : .outputs ∉ ps) :
    AnsweredOk rest ps s (u.reply .ok) := by
  have sent : (u.reply .ok).out = s.out ++ [.result .ok] := by rw [reply_eq, emit_out, h .outputs ho]
  refine ⟨h .inputs hi, sent, ?_⟩
  refine ((onlyChanges_inputs rest).trans (h.trans (onlyChanges_out _))).mono fun p => ?_
  simp only [List.mem_append, List.mem_cons, List.not_mem_nil, or_false]
  tauto

/-- A request taken where it is accepted has its effect. -/
theorem request_accepted {accepted : Bool} {effect : State} (h : accepted = true) :
    s.request accepted effect = effect := if_pos h

/-! ### Run control (R230) -/

theorem step_start (h0 : s.slotsLeft = 0) (hi : s.inputs = .start :: rest) (hr : s.run = .stopped)
    (hf : s.fault = none) :
    ∃ t, step s = .next t ∧ t.run = .running ∧ AnsweredOk rest [.run] s t := by
  refine ⟨_, step_serves h0 hi, ?_⟩
  rw [request_accepted (by simp [hr, hf])]
  exact ⟨rfl, answeredOk_reply (onlyChanges_run _) (by simp) (by simp)⟩

theorem step_stop (h0 : s.slotsLeft = 0) (hi : s.inputs = .stop :: rest) (hr : s.run ≠ .stopped) :
    ∃ t, step s = .next t ∧ t.run = .stopped ∧ AnsweredOk rest [.run] s t := by
  refine ⟨_, step_serves h0 hi, ?_⟩
  rw [request_accepted (by simp [active, hr])]
  exact ⟨rfl, answeredOk_reply (onlyChanges_run _) (by simp) (by simp)⟩

/-- Running and Paused are exchanged. -/
theorem togglePause_eq (hr : s.run ≠ .stopped) :
    s.togglePause = { s with run := if s.run = .running then .paused else .running } := by
  cases h : s.run <;> simp_all [togglePause]

theorem step_togglePause (h0 : s.slotsLeft = 0) (hi : s.inputs = .togglePause :: rest) (hr : s.run ≠ .stopped) :
    ∃ t, step s = .next t ∧ t.run = (if s.run = .running then .paused else .running) ∧
      AnsweredOk rest [.run] s t := by
  refine ⟨_, step_serves h0 hi, ?_⟩
  rw [request_accepted (by simp [active, hr]), togglePause_eq (s := { s with inputs := rest }) hr]
  exact ⟨rfl, answeredOk_reply (onlyChanges_run _) (by simp) (by simp)⟩

theorem step_setRate {v : Nat} (h0 : s.slotsLeft = 0) (hi : s.inputs = .setRate v :: rest) :
    ∃ t, step s = .next t ∧ t.ips = v ∧ AnsweredOk rest [.rate] s t :=
  ⟨_, step_serves h0 hi, rfl, answeredOk_reply (onlyChanges_ips v) (by simp) (by simp)⟩

/-- A key event is posted at any moment, a tick in progress or not (R231). -/
theorem step_key {e : KeyEvent} (hi : s.inputs = .key e :: rest) :
    ∃ t, step s = .next t ∧ t.kq = s.kq ++ [e] ∧ AnsweredOk rest [.queue] s t :=
  ⟨_, step_posts_key hi, rfl, answeredOk_reply (onlyChanges_kq _) (by simp) (by simp)⟩

/-- Settles O54, one clause per request. -/
theorem runControlRequests : Obligations.RunControlRequests := by
  unfold Obligations.RunControlRequests
  refine ⟨fun s r rest h0 hi => ⟨?start, ?stop, ?togglePause, ?setRate⟩, fun s e rest => step_key⟩
  case start => rintro rfl; exact step_start h0 hi
  case stop => rintro rfl; exact step_stop h0 hi
  case togglePause => rintro rfl; exact step_togglePause h0 hi
  case setRate => rintro v rfl; exact step_setRate h0 hi

end Sys2Proof.Machine
end

section
/-! SUPPORT. RESET (70_reset_and_hazards.md R266): the memory it builds, and the fields it clears. -/

namespace Sys2Proof.Machine

open State

variable {s : State} {rest : List Input}

/-! ### The memory a reset builds (20_memory.md R62, R63) -/

variable {font : Font} {img : Bytes}

theorem Mem.blank_font (g : Fin 16) (j : Fin 5) : Mem.blank font (5 * g + j) = font[g][j] := by
  have hg : (5 * g.val + j.val) / 5 = g.val := by omega
  have hj : (5 * g.val + j.val) % 5 = j.val := by omega
  have below : 5 * g.val + j.val < 80 := by omega
  rw [Mem.blank, dif_pos below]
  simp [hg, hj]

theorem Mem.blank_of_ge {a : Nat} (h : 80 ≤ a) : Mem.blank font a = 0 := dif_neg (Nat.not_lt.mpr h)

/-- Outside the image every byte is the unlisted one. -/
theorem read_initMem_outside {a : Nat} (h : a < 0x200 ∨ 0x200 + img.length ≤ a) :
    Mem.read font (initMem font img) a = Mem.blank font a := Mem.read_ofBytes_outside img h

/-- The font stands below the image. -/
theorem read_initMem_font (g : Fin 16) (j : Fin 5) : Mem.read font (initMem font img) (5 * g + j) = font[g][j] := by
  rw [read_initMem_outside (by omega), Mem.blank_font]

theorem read_initMem_image {k : Nat} (h : k < img.length) : Mem.read font (initMem font img) (0x200 + k) = img[k] :=
  Mem.read_ofBytes_inside img k h

/-- Between font and image, and after the image, every byte is 0. -/
theorem read_initMem_zero {a : Nat} (h : (80 ≤ a ∧ a < 0x200) ∨ 0x200 + img.length ≤ a) :
    Mem.read font (initMem font img) a = 0 := by
  rw [read_initMem_outside (by omega), Mem.blank_of_ge (by omega)]

/-! ### RESET (R266) -/

theorem pixel_clearFrame (r c : Nat) : Frame.pixel clearFrame r c = false := by
  rw [Frame.pixel]
  split
  · simp [clearFrame]
  · rfl

theorem reg_resetMachine (s : State) (r : Reg) : s.resetMachine.reg r = 0 := by simp [reg, resetMachine]

theorem keyDown_resetMachine (s : State) (k : KeyIndex) : s.resetMachine.keyDown k = false := by
  simp [keyDown, resetMachine]

theorem step_reset (h0 : s.slotsLeft = 0) (hi : s.inputs = .reset :: rest) (hr : s.run ≠ .running) :
    step s = .next (({ s with inputs := rest } : State).resetMachine.reply .ok) := by
  rw [step_serves h0 hi, serve, request_accepted (by simp [halted, hr])]

/-- Settles O10: memory is `InitMem` of IMG, and every other part is a field of `resetMachine`. -/
theorem resetRequestState : Obligations.ResetRequestState := by
  unfold Obligations.ResetRequestState
  intro s rest h0 hi hr _
  have regs := reg_resetMachine { s with inputs := rest }
  have keys := keyDown_resetMachine { s with inputs := rest }
  refine ⟨_, step_reset h0 hi hr, regs, rfl, rfl, rfl, rfl, rfl, pixel_clearFrame, keys, rfl, rfl, rfl,
    read_initMem_font, fun k => read_initMem_image, fun a => read_initMem_zero, rfl, rfl, ?_⟩
  simp [Part.Same, resetMachine]

end Sys2Proof.Machine
end

section
/-! SUPPORT. The drain of KQ into K (10_state.md R37). -/

namespace Sys2Proof.Machine

open State

/-- The last event that names a key decides it. -/
theorem foldl_applyKey_last {keys : Vector Bool 16} {e : KeyEvent} (before : List KeyEvent) {after : List KeyEvent}
    (h : ∀ f ∈ after, f.key ≠ e.key) :
    ((before ++ e :: after).foldl applyKey keys)[e.key.toNat] = (e.kind == .down) := by
  rw [List.foldl_append, List.foldl_cons, foldl_applyKey_other after h, applyKey, Vector.getElem_set_self]

/-- Settles O18, from the two facts on a queue applied to K: a key it does not name, and a key's last event. -/
theorem drainAppliesKeyEvents : Obligations.DrainAppliesKeyEvents := by
  unfold Obligations.DrainAppliesKeyEvents
  refine fun s => ⟨rfl, (onlyChanges_keys (s.kq.foldl applyKey s.keys)).trans (onlyChanges_kq []),
    fun k h => foldl_applyKey_other s.kq h, fun before after e hq h => ?_⟩
  simp only [keyDown, drain_keys, hq]
  rw [foldl_applyKey_last before h, beq_iff_eq]

end Sys2Proof.Machine
end

section
/-! SUPPORT. Dxyn whole (43_display.md R171): the sprite bits of the statements are the bits of the bytes drawn, so
the laws of the canvas say which pixels flip and when VF is set. -/

namespace Sys2Proof.Machine

open State

variable {s t : State} {x y n : BitVec 4}

/-! ### The sprite's bits -/

theorem loadList_getD {a n k : Nat} (h : k < n) : (s.loadList a n).getD k 0 = s.load (a + k) := by
  simp [loadList, h]

/-- A bit lands on a pixel where the sprite's rows and columns reach it and the byte of that row has it. -/
theorem spriteBit_eq_true {n x0 y0 r c : Nat} :
    spriteBit s n x0 y0 r c = true ↔
      (y0 ≤ r ∧ r < y0 + n ∧ x0 ≤ c ∧ c < x0 + 8) ∧
        ((s.loadList (s.dataAddr 0) n).getD (r - y0) 0).getLsbD (7 - (c - x0)) = true := by
  rw [spriteBit, Bool.and_eq_true, decide_eq_true_eq]
  refine and_congr_right fun h => ?_
  rw [loadList_getD (by omega), dataAddr, Nat.add_zero]

/-! ### The drawing -/

/-- A pixel of the drawing: flipped exactly when a sprite bit lands on it. -/
theorem pixel_drawing {r c : Nat} (hr : r < 32) (hc : c < 64) :
    Frame.pixel (drawing x y n s).fb r c =
      (Frame.pixel s.fb r c ^^ spriteBit s n.toNat (s.spriteCol x) (s.spriteRow y) r c) := by
  rw [drawing, Canvas.pixel_drawRows _ _ _ _ _ _ hr hc]
  congr 1
  rw [Bool.eq_iff_iff, spriteBit_eq_true]
  simp [loadList]

/-- A collision: a sprite bit lands on a set pixel of the grid. -/
theorem hit_drawing :
    (drawing x y n s).hit = true ↔ ∃ r c, r < 32 ∧ c < 64 ∧ Frame.pixel s.fb r c = true ∧
      spriteBit s n.toNat (s.spriteCol x) (s.spriteRow y) r c = true := by
  rw [drawing, Canvas.hit_drawRows]
  simp only [Bool.false_eq_true, false_or, spriteBit_eq_true]
  have hl : (s.loadList (s.dataAddr 0) n.toNat).length = n.toNat := by simp [loadList]
  rw [hl]
  exact exists_congr fun r => exists_congr fun c => by tauto

/-! ### The state after a draw -/

theorem reg_withDrawing (cv : Canvas) (r : Reg) :
    (s.withDrawing cv).reg r = if r = VF then flagByte cv.hit else s.reg r := reg_setReg VF r

/-- A draw in range sets pixels and VF from the drawing, and DIRTY. -/
theorem exec_drw_inRange (h : n = 0 ∨ s.I.toNat + n.toNat - 1 ≤ 0xFFF) :
    exec (.drw x y n) s = .next (s.withDrawing (drawing x y n s)).nextInstr :=
  exec_drw_completed (faultCondition_drw_eq_none.mpr h)

/-- The word of a draw (30_encoding.md R85). -/
theorem encode_drw_toNat : (encode (.drw x y n)).toNat = 0xD000 + 256 * x.toNat + 16 * y.toNat + n.toNat :=
  formatXYN_toNat 0xD x y n

/-- A draw past 0xFFF records its word and the addresses of its bytes (60_exceptions.md R211). -/
theorem faultCondition_drw_outOfRange (hn : n ≠ 0) (h : 0xFFF < s.I.toNat + n.toNat - 1) :
    faultCondition (.drw x y n) s = some (.dataOutOfRange,
      .data (encode (.drw x y n)) s.I.toNat (s.I.toNat + n.toNat - 1)) := by
  have : n.toNat ≠ 0 := fun e => hn (BitVec.eq_of_toNat_eq e)
  exact if_pos ⟨Nat.pos_of_ne_zero this, h⟩

/-- Settles O40: in range by the drawing's pixels (`pixel_drawing`) and collision (`hit_drawing`), else by the fault
of R211. -/
theorem drawXorsClippedSprite : Obligations.DrawXorsClippedSprite := by
  unfold Obligations.DrawXorsClippedSprite
  refine fun x y n s => ⟨fun h => ?_, fun hn h => ?_⟩
  · have vf : (s.withDrawing (drawing x y n s)).nextInstr.reg VF = flagByte (drawing x y n s).hit :=
      reg_withDrawing _ VF
    refine ⟨_, exec_drw_inRange h, fun r c hr hc => pixel_drawing hr hc, fun hit => ?_, fun miss => ?_, rfl,
      pcMovedBy_of_pc_eq rfl, fun r hr => ?_, (onlyChanges_withDrawing _).advance 2⟩
    · rw [vf, hit_drawing.mpr hit]
      rfl
    · have : (drawing x y n s).hit = false := Bool.eq_false_iff.mpr fun hit => by
        obtain ⟨r, c, hr, hc, hset, hbit⟩ := hit_drawing.mp hit
        exact Bool.false_ne_true ((miss r c hr hc hset).symm.trans hbit)
      rw [vf, this]
      rfl
    · rw [nextInstr_eq, advance_reg, reg_withDrawing, if_neg (by simpa using hr)]
  · exact ⟨_, _, exec_faults _ (faultCondition_drw_outOfRange hn h), encode_drw_toNat, raised_raiseFault _ _⟩

end Sys2Proof.Machine
end

section
/-! SUPPORT. The encoder reaches every word: a word that a row of the table selects is encoded by the instruction of
that row with the word's fields, any other word by itself as data (30_encoding.md R81, R82, R85, R87). With the
round trip of the instructions, decoding is then the inverse of encoding. -/

namespace Sys2Proof

variable {w : Word}

/-! ### A selected word is written by its row's format (R85) -/

theorem formatNNN_of_selects {op : BitVec 4} (h : OpRow.selects ⟨0xF000#16, formatNNN op 0#12⟩ w = true) :
    formatNNN op (nnnOf w) = w := by
  rw [← (selects_F000 w op).mp h, formatNNN_fields]

theorem formatXKK_of_selects {op : BitVec 4} (h : OpRow.selects ⟨0xF000#16, formatNNN op 0#12⟩ w = true) :
    formatXKK op (xOf w) (kkOf w) = w := by
  rw [← (selects_F000 w op).mp h, formatXKK_fields]

theorem formatXYN_of_selects {op : BitVec 4} (h : OpRow.selects ⟨0xF000#16, formatNNN op 0#12⟩ w = true) :
    formatXYN op (xOf w) (yOf w) (nOf w) = w := by
  rw [← (selects_F000 w op).mp h, formatXYN_fields]

/-- Where the row fixes the last nibble. -/
theorem formatXY_of_selects {op n : BitVec 4} (h : OpRow.selects ⟨0xF00F#16, formatXYN op 0#4 0#4 n⟩ w = true) :
    formatXYN op (xOf w) (yOf w) n = w := by
  obtain ⟨hop, hn⟩ := (selects_F00F w op n).mp h
  rw [← hop, ← hn, formatXYN_fields]

/-- Where the row fixes the low byte. -/
theorem formatX_of_selects {op : BitVec 4} {kk : Byte} (h : OpRow.selects ⟨0xF0FF#16, formatXKK op 0#4 kk⟩ w = true) :
    formatXKK op (xOf w) kk = w := by
  obtain ⟨hop, hkk⟩ := (selects_F0FF w op kk).mp h
  rw [← hop, ← hkk, formatXKK_fields]

theorem eq_of_selects {p : Word} (h : OpRow.selects ⟨0xFFFF#16, p⟩ w = true) : p = w := ((selects_FFFF w p).mp h).symm

/-! ### Every word is encoded -/

/-- A word that a row selects, row by row of R82. -/
theorem exists_encode_of_selects (w : Word) :
    ∀ r ∈ opRows, r.selects w = true → ∃ i : Instr, i.wf = true ∧ encode i = w := by
  simp only [opRows, List.cons_append, List.nil_append, List.forall_mem_cons]
  exact ⟨
    fun h => ⟨.cls, rfl, eq_of_selects h⟩,
    fun h => ⟨.ret, rfl, eq_of_selects h⟩,
    fun h => ⟨.jp _, rfl, formatNNN_of_selects h⟩,
    fun h => ⟨.call _, rfl, formatNNN_of_selects h⟩,
    fun h => ⟨.seImm _ _, rfl, formatXKK_of_selects h⟩,
    fun h => ⟨.sneImm _ _, rfl, formatXKK_of_selects h⟩,
    fun h => ⟨.seReg _ _, rfl, formatXY_of_selects h⟩,
    fun h => ⟨.ldImm _ _, rfl, formatXKK_of_selects h⟩,
    fun h => ⟨.addImm _ _, rfl, formatXKK_of_selects h⟩,
    fun h => ⟨.ldReg _ _, rfl, formatXY_of_selects h⟩,
    fun h => ⟨.orReg _ _, rfl, formatXY_of_selects h⟩,
    fun h => ⟨.andReg _ _, rfl, formatXY_of_selects h⟩,
    fun h => ⟨.xorReg _ _, rfl, formatXY_of_selects h⟩,
    fun h => ⟨.addReg _ _, rfl, formatXY_of_selects h⟩,
    fun h => ⟨.subReg _ _, rfl, formatXY_of_selects h⟩,
    fun h => ⟨.shr _ _, rfl, formatXY_of_selects h⟩,
    fun h => ⟨.subn _ _, rfl, formatXY_of_selects h⟩,
    fun h => ⟨.shl _ _, rfl, formatXY_of_selects h⟩,
    fun h => ⟨.sneReg _ _, rfl, formatXY_of_selects h⟩,
    fun h => ⟨.ldI _, rfl, formatNNN_of_selects h⟩,
    fun h => ⟨.jpV0 _, rfl, formatNNN_of_selects h⟩,
    fun h => ⟨.rnd _ _, rfl, formatXKK_of_selects h⟩,
    fun h => ⟨.drw _ _ _, rfl, formatXYN_of_selects h⟩,
    fun h => ⟨.skp _, rfl, formatX_of_selects h⟩,
    fun h => ⟨.sknp _, rfl, formatX_of_selects h⟩,
    fun h => ⟨.ldVxDt _, rfl, formatX_of_selects h⟩,
    fun h => ⟨.ldVxK _, rfl, formatX_of_selects h⟩,
    fun h => ⟨.ldDtVx _, rfl, formatX_of_selects h⟩,
    fun h => ⟨.ldStVx _, rfl, formatX_of_selects h⟩,
    fun h => ⟨.addI _, rfl, formatX_of_selects h⟩,
    fun h => ⟨.ldF _, rfl, formatX_of_selects h⟩,
    fun h => ⟨.ldB _, rfl, formatX_of_selects h⟩,
    fun h => ⟨.storeRegs _, rfl, formatX_of_selects h⟩,
    fun h => ⟨.loadRegs _, rfl, formatX_of_selects h⟩,
    List.forall_mem_nil _⟩

/-- Every word is the encoding of a well-formed instruction. -/
theorem exists_encode (w : Word) : ∃ i : Instr, i.wf = true ∧ encode i = w := by
  by_cases hu : Word.unrecognized w = true
  · exact ⟨.dw w, hu, rfl⟩
  · obtain ⟨r, hr, hs⟩ : ∃ r ∈ opRows, r.selects w = true := by simpa [Word.unrecognized] using hu
    exact exists_encode_of_selects w r hr hs

/-! ### Decoding and encoding are inverse -/

open Laws.RoundTrip in
/-- The round trips of the constructors together. -/
theorem decodeWord_encode {i : Instr} (h : i.wf = true) : decodeWord (encode i) = i := by
  revert h
  cases i
  exacts [cls, ret, jp _, call _, seImm _ _, sneImm _ _, seReg _ _, ldImm _ _, addImm _ _, ldReg _ _, orReg _ _,
    andReg _ _, xorReg _ _, addReg _ _, subReg _ _, shr _ _, subn _ _, shl _ _, sneReg _ _, ldI _, jpV0 _, rnd _ _,
    drw _ _ _, skp _, sknp _, ldVxDt _, ldVxK _, ldDtVx _, ldStVx _, addI _, ldF _, ldB _, storeRegs _, loadRegs _,
    dw _]

theorem decodeWord_wf (w : Word) : (decodeWord w).wf = true := by
  obtain ⟨i, hi, rfl⟩ := exists_encode w
  rwa [decodeWord_encode hi]

theorem encode_decodeWord (w : Word) : encode (decodeWord w) = w := by
  obtain ⟨i, hi, rfl⟩ := exists_encode w
  rw [decodeWord_encode hi]

/-- Settles O2: decoding inverts encoding (`encode_decodeWord`), and a word is its two bytes. -/
theorem encodeOfDecode : Obligations.EncodeOfDecode := by
  unfold Obligations.EncodeOfDecode
  intro hi lo
  refine ⟨decodeWord_wf _, ?_⟩
  rw [encodeBytes, encode_decodeWord, hiByte_wordOfBytes, loByte_wordOfBytes]

/-- Settles O6: the word of two bytes as a number (`wordOfBytes_toNat`), which decoding and encoding keep. -/
theorem fetchIsBigEndian : Obligations.FetchIsBigEndian := by
  unfold Obligations.FetchIsBigEndian
  refine ⟨fun s => wordOfBytes_toNat _ _, fun hi lo rest => ⟨_, rfl, ?_⟩, fun _ => rfl, rfl⟩
  rw [encode_decodeWord, wordOfBytes_toNat]

end Sys2Proof
end

section
/-! SUPPORT. The statements on memory alone (20_memory.md R63, R69), from the laws of memory. -/

namespace Sys2Proof.Machine

open State

/-- Settles O7: the two laws of a stored byte. -/
theorem readReturnsLastWrite : Obligations.ReadReturnsLastWrite := by
  unfold Obligations.ReadReturnsLastWrite
  exact fun s a b ha => ⟨load_store_same ha, fun c hc => load_store_other hc⟩

/-- Settles O8: the bytes of each region of `initMem`, and its canonical form. -/
theorem initMemContents : Obligations.InitMemContents := by
  unfold Obligations.InitMemContents
  exact fun font img h =>
    ⟨read_initMem_font, fun _ hk => read_initMem_image hk, fun _ ha => read_initMem_zero ha, wf_initMem h⟩

end Sys2Proof.Machine
end

section
/-! SUPPORT. The statements on the encoding and on the fetch (30_encoding.md R80 to R88): the round trip of the bytes,
the rows of the opcode table as the decoder selects them, and the slot that runs the word at pc. -/

namespace Sys2Proof

/-! ### The round trip of the bytes -/

/-- Settles O1: a word is its two bytes, and decoding its word gives the instruction (`decodeWord_encode`). -/
theorem decodeOfEncode : Obligations.DecodeOfEncode := by
  unfold Obligations.DecodeOfEncode
  intro i rest h
  calc decode (encodeBytes i ++ rest)
      = .ok (decodeWord (wordOfBytes (hiByte (encode i)) (loByte (encode i))), rest) := rfl
    _ = .ok (i, rest) := by rw [wordOfBytes_hiByte_loByte, decodeWord_encode h]

/-! ### The rows of the opcode table (R82) -/

variable {w : Word} {r q : OpRow}

/-- Two rows that select one word agree where both masks look. -/
theorem patterns_agree (hr : r.selects w = true) (hq : q.selects w = true) :
    r.pattern &&& q.mask = q.pattern &&& r.mask := by
  rw [OpRow.selects, beq_iff_eq] at hr hq
  rw [← hr, ← hq, BitVec.and_assoc, BitVec.and_assoc, BitVec.and_comm r.mask]

/-- Any two rows of the table differ at a bit that both masks look at. -/
theorem opRows_disjoint : ∀ r ∈ opRows, ∀ q ∈ opRows, r.pattern &&& q.mask = q.pattern &&& r.mask → r = q := by
  decide

theorem row_unique (hr : r ∈ opRows) (hq : q ∈ opRows) (hsr : r.selects w = true) (hsq : q.selects w = true) :
    r = q :=
  opRows_disjoint r hr q hq (patterns_agree hsr hsq)

theorem unrecognized_iff : Word.unrecognized w = true ↔ ∀ r ∈ opRows, r.selects w = false := by
  simp [Word.unrecognized]

/-- The decoder gives the default row exactly to the unrecognized words: what it gives is well formed. -/
theorem decodeWord_eq_dw_iff : decodeWord w = .dw w ↔ Word.unrecognized w = true := by
  refine ⟨fun h => ?_, decodeWord_of_unrecognized w⟩
  have wf := decodeWord_wf w
  rwa [h] at wf

/-- A selected word is not data, so the instruction decoded is of a row that selects the word, and there is one. -/
theorem row_decodeWord (hr : r ∈ opRows) (hs : r.selects w = true) : (decodeWord w).row = r := by
  rcases decodeWord_standsFor w with hd | ⟨hrow, hsel⟩
  · have unselected := unrecognized_iff.mp (decodeWord_eq_dw_iff.mp hd) r hr
    exact absurd hs (by simp [unselected])
  · exact row_unique hrow hr hsel hs

/-- Settles O3, one clause per lemma above. -/
theorem decodeSelectsTableRow : Obligations.DecodeSelectsTableRow := by
  unfold Obligations.DecodeSelectsTableRow
  exact ⟨rfl, fun w r => row_decodeWord, fun w r q => row_unique,
    fun w => decodeWord_eq_dw_iff.trans unrecognized_iff⟩

/-! ### Fields and written-out words (R81, R82) -/

/-- Settles O4: each field as a number of the word, and kk and nnn put together from theirs. -/
theorem wordFields : Obligations.WordFields := by
  unfold Obligations.WordFields
  intro w
  refine ⟨opOf_toNat w, xOf_toNat w, yOf_toNat w, nOf_toNat w, ?kk, ?nnn⟩
  case kk => rw [kkOf_toNat, yOf_toNat, nOf_toNat]; omega
  case nnn => rw [nnnOf_toNat, xOf_toNat, kkOf_toNat]; omega

/-- Settles O5: the decoder evaluated on the seven words. -/
theorem writtenOutWordsDecode : Obligations.WrittenOutWordsDecode := by
  unfold Obligations.WrittenOutWordsDecode
  decide

end Sys2Proof

namespace Sys2Proof.Machine

open State

variable {s : State} {i : Instr}

/-! ### The slot that fetches (R83, R84) -/

/-- Without a key wait a slot drains KQ and fetches. -/
theorem slot_eq_fetchExec (ha : s.awaitKey = none) : slot s = fetchExec s.drain := by
  rw [slot, drain_awaitKey, ha]

/-- The two bytes at pc, decoded as a byte sequence, are the word fetched. -/
theorem decode_bytes_at_pc (h : decode [s.load s.pc.toNat, s.load (s.pc.toNat + 1)] = .ok (i, [])) :
    decodeWord s.fetchWord = i := by
  have fetched : Except.ok (decodeWord s.fetchWord, []) = Except.ok (i, []) := h
  exact congrArg Prod.fst (Except.ok.inj fetched)

/-- A slot that fetches runs the instruction the bytes at pc decode to, on the drained state. -/
theorem slot_runs_decoded (ha : s.awaitKey = none) (hp : s.pc.toNat ≤ 0xFFE)
    (hd : decode [s.load s.pc.toNat, s.load (s.pc.toNat + 1)] = .ok (i, [])) : slot s = exec i s.drain := by
  rw [slot_eq_exec ha hp, ← decode_bytes_at_pc hd]
  rfl

/-- An accepted STEP runs one slot (60_exceptions.md R232). -/
theorem serve_step_accepted (hr : s.run ≠ .running) (hf : s.fault = none) :
    serve .step s = Answer.andThen (slot s) afterStep := by
  rw [serve, if_pos (by simp [halted, hr, hf])]

/-- Settles O16: in each place a slot runs it runs on the bytes at pc of `s` (`slot_runs_decoded`). The places are
those of `SlotDue`, and a STEP between ticks. -/
theorem stepRunsDecodedInstruction : Obligations.StepRunsDecodedInstruction := by
  unfold Obligations.StepRunsDecodedInstruction
  intro s i ha hp hd
  have runs (k : Nat) (l : List Input) (f : State → State) :
      Answer.andThen (slot { s with slotsLeft := k, inputs := l }) f =
        Answer.andThen (exec i { s.drain with slotsLeft := k, inputs := l }) f :=
    congrArg (Answer.andThen · f) (slot_runs_decoded (s := { s with slotsLeft := k, inputs := l }) ha hp hd)
  refine ⟨fun k hk hi => ?inside, fun h0 hr hi => ?begins, fun rest h0 hr hi => ?ticked,
    fun rest h0 hr hf hi => ?single⟩
  case inside => exact (step_slotDue (.inl ⟨k, hk, hi, rfl⟩)).trans (runs _ _ _)
  case begins => exact (step_slotDue (.inr (.inl ⟨h0, hr, hi, rfl⟩))).trans (runs _ _ _)
  case ticked => exact (step_slotDue (.inr (.inr ⟨rest, h0, hr, hi, rfl⟩))).trans (runs _ _ _)
  case single =>
    calc step s = serve .step { s with inputs := rest } := step_serves h0 hi
      _ = Answer.andThen (slot { s with inputs := rest }) afterStep := serve_step_accepted hr hf
      _ = Answer.andThen (exec i { s.drain with inputs := rest }) afterStep := runs _ _ _

/-- Settles O17: the fetch check raises the fault on the drained state (`raised_raiseFault`). -/
theorem fetchBeyondMemoryFaults : Obligations.FetchBeyondMemoryFaults := by
  unfold Obligations.FetchBeyondMemoryFaults
  intro s ha hp
  have raised : slot s = .next (s.drain.raiseFault .fetchOutOfRange .fetch) := by
    rw [slot_eq_fetchExec ha, fetchExec]
    exact if_pos hp
  exact ⟨_, raised, raised_raiseFault _ _⟩

end Sys2Proof.Machine
end

section
/-! SUPPORT. Return, jumps, call and the skips on registers (40_control_flow.md R110 to R117): the next state of each
and where its pc stands. What stays the same follows from the rules per field. -/

namespace Sys2Proof.Machine

open State

variable {s : State} {i : Instr}

/-! ### Jumps and return -/

/-- An address widened to pc is the same number. -/
theorem addr_setWidth_toNat (nnn : Addr) : (nnn.setWidth 16).toNat = nnn.toNat :=
  BitVec.toNat_setWidth_of_le (by decide)

/-- The sum of R117 has no carry out of 16 bits, so it is the sum of the numbers. -/
theorem addr_add_byte_toNat (nnn : Addr) (b : Byte) :
    ((nnn.setWidth 16 : Pc) + b.setWidth 16).toNat = nnn.toNat + b.toNat := by
  have fits : (nnn.setWidth 16).toNat + (b.setWidth 16).toNat < 2 ^ 16 := by
    rw [addr_setWidth_toNat, BitVec.toNat_setWidth_of_le (by decide)]
    omega
  rw [BitVec.toNat_add_of_lt fits, addr_setWidth_toNat, BitVec.toNat_setWidth_of_le (by decide)]

/-- Settles O25: both answer a jump, which writes pc alone. -/
theorem jumpsSetPc : Obligations.JumpsSetPc := by
  unfold Obligations.JumpsSetPc
  exact fun nnn s => ⟨⟨_, rfl, addr_setWidth_toNat nnn, onlyChanges_pc _⟩,
    ⟨_, rfl, addr_add_byte_toNat nnn (s.reg V0), onlyChanges_pc _⟩⟩

theorem exec_ret_nil (h : s.stack = []) : exec .ret s = .next (s.jump 0x200) := by
  rw [exec, execRet, h]

theorem exec_ret_cons {p : Pc} {rest : List Pc} (h : s.stack = p :: rest) :
    exec .ret s = .next { s with stack := rest, pc := p } := by
  rw [exec, execRet, h]

/-- Settles O24, by whether the stack is empty. -/
theorem returnPopsExactly : Obligations.ReturnPopsExactly := by
  unfold Obligations.ReturnPopsExactly
  refine fun s => ⟨fun h => ⟨_, exec_ret_nil h, rfl, onlyChanges_pc _⟩, fun p rest h => ?_⟩
  exact ⟨_, exec_ret_cons h, rfl, rfl, (onlyChanges_pc p).trans (onlyChanges_stack rest)⟩

/-! ### Call -/

/-- The word of a call (30_encoding.md R85). -/
theorem encode_call_toNat (nnn : Addr) : (encode (.call nnn)).toNat = 0x2000 + nnn.toNat := formatNNN_toNat 2 nnn

/-- Settles O26: below the cap a push and a jump (`exec_call_completed`), at the cap the fault of R211. -/
theorem callPushesReturnAddress : Obligations.CallPushesReturnAddress := by
  unfold Obligations.CallPushesReturnAddress
  refine fun nnn s => ⟨fun room => ?_, fun full => ?_⟩
  · exact ⟨_, exec_call_completed (if_neg room), addr_setWidth_toNat nnn, ⟨_, rfl, pcPlus_toNat⟩,
      (onlyChanges_pc _).trans (onlyChanges_stack _)⟩
  · exact ⟨_, _, exec_faults (.call nnn) (if_pos full), encode_call_toNat nnn, raised_raiseFault _ _⟩

/-! ### Skips on registers -/

/-- An instruction that answers a skip moves pc by the skip's distance and changes nothing else (R118). -/
theorem exec_skipIf {c : Bool} {k : Nat} (e : exec i s = .next (s.skipIf c)) (hk : (if c then 4 else 2) = k) :
    ∃ t, exec i s = .next t ∧ PcMovedBy k s t ∧ OnlyChanges [.pc] s t :=
  ⟨_, e, pcMovedBy_of_pc_eq (by rw [skipIf_eq, advance_pc, hk]), onlyChanges_advance _⟩

theorem skip_of_eq (a b : Byte) :
    (if a == b then 4 else 2) = if a.toNat = b.toNat then 4 else 2 := by
  simp only [beq_iff_eq, BitVec.toNat_inj]

theorem skip_of_ne (a b : Byte) :
    (if a != b then 4 else 2) = if a.toNat = b.toNat then 2 else 4 := by
  simp only [bne_iff_ne, ne_eq, ite_not, BitVec.toNat_inj]

/-- Settles O27: each answers a skip on a comparison of bytes, which is one of their values. -/
theorem skipsOnRegisters : Obligations.SkipsOnRegisters := by
  unfold Obligations.SkipsOnRegisters
  exact fun x y kk s => ⟨exec_skipIf rfl (skip_of_eq (s.reg x) kk), exec_skipIf rfl (skip_of_ne (s.reg x) kk),
    exec_skipIf rfl (skip_of_eq (s.reg x) (s.reg y)), exec_skipIf rfl (skip_of_ne (s.reg x) (s.reg y))⟩

end Sys2Proof.Machine
end

section
/-! SUPPORT. What the slots of a tick change around the instructions they run, and the machine at its successful end,
whose slots run the jump to itself (60_exceptions.md R222, R253). -/

namespace Sys2Proof.Machine

open State

variable {s t u : State}

/-! ### Frames of the parts of a tick -/

namespace State

theorem onlyChanges_dirty (d : Bool) : OnlyChanges [.dirty] s { s with dirty := d } := by
  intro p hp
  cases p <;> simp_all [Part.Same, load, reg]

theorem onlyChanges_slotsLeft (k : Nat) : OnlyChanges [.tickLeft] s { s with slotsLeft := k } := by
  intro p hp
  cases p <;> simp_all [Part.Same, load, reg]

theorem onlyChanges_drain : OnlyChanges [.keys, .queue] s s.drain :=
  (onlyChanges_keys (s.kq.foldl applyKey s.keys)).trans (onlyChanges_kq [])

theorem onlyChanges_tickEnd : OnlyChanges [.dt, .st, .outputs, .dirty] s s.tickEnd := by
  rw [tickEnd_eq]
  exact (onlyChanges_dt s.tickEnd.dt).trans <| (onlyChanges_st s.tickEnd.st).trans <|
    (onlyChanges_out s.tickEnd.out).trans (onlyChanges_dirty s.tickEnd.dirty)

theorem onlyChanges_afterSlot : OnlyChanges [.tickLeft, .dt, .st, .outputs, .dirty] s s.afterSlot := by
  rcases afterSlot_cases s with h | h | h <;> rw [h]
  · exact (onlyChanges_slotsLeft s.slotsLeft).mono (by simp)
  · exact (onlyChanges_slotsLeft 0).mono (by simp)
  · exact onlyChanges_tickEnd.mono (by simp)

/-- Where a slot is due, only the count of slots has been written and a TICK taken. -/
theorem SlotDue.onlyChanges (h : SlotDue s u) : OnlyChanges [.tickLeft, .inputs] s u := by
  rcases h with ⟨k, -, -, rfl⟩ | ⟨-, -, -, rfl⟩ | ⟨rest, -, -, -, rfl⟩
  · exact (onlyChanges_slotsLeft k).mono (by simp)
  · exact (onlyChanges_slotsLeft _).mono (by simp)
  · exact (onlyChanges_slotsLeft (max 1 (s.ips / 60) - 1)).trans (onlyChanges_inputs rest)

/-! ### The successful end -/

/-- Whether a machine is at its successful end is a matter of FAULT, AWAIT, pc and memory. -/
theorem parked_of_same (h : s.parked) (same : ∀ p ∈ [Part.latch, .wait, .pc, .memory], Part.Same s t p) :
    t.parked := by
  have hfault : t.fault = s.fault := same .latch (by simp)
  have hwait : t.awaitKey = s.awaitKey := same .wait (by simp)
  have hpc : t.pc = s.pc := same .pc (by simp)
  have hmem : ∀ a, t.load a = s.load a := same .memory (by simp)
  have hword : t.fetchWord = s.fetchWord := by simp only [fetchWord, hpc, hmem]
  rwa [parked, hfault, hwait, hpc, hword]

/-- The word at the successful end decodes to the jump to pc. -/
theorem decodeWord_of_parked (h : s.parked) : decodeWord s.fetchWord = .jp (s.pc.setWidth 12) := by
  obtain ⟨-, -, hpc, hword⟩ := h
  have selfJump : s.fetchWord = encode (.jp (s.pc.setWidth 12)) := by
    refine BitVec.eq_of_toNat_eq (hword.trans ?_)
    rw [encode, formatNNN_toNat, BitVec.toNat_setWidth, Nat.mod_eq_of_lt (by omega)]
    rfl
  rw [selfJump, decodeWord_encode rfl]

/-- The target of the jump at the successful end is pc. -/
theorem pc_setWidth_of_parked (h : s.parked) : (s.pc.setWidth 12).setWidth 16 = s.pc := by
  obtain ⟨-, -, hpc, -⟩ := h
  apply BitVec.eq_of_toNat_eq
  rw [addr_setWidth_toNat, BitVec.toNat_setWidth, Nat.mod_eq_of_lt (by omega)]

end State

/-- At the successful end a slot drains KQ, and its jump leaves pc where it is (R111). -/
theorem slot_of_parked (h : s.parked) : slot s = .next s.drain := by
  have ⟨_, hwait, hpc, _⟩ := h
  calc slot s = exec (decodeWord s.fetchWord) s.drain := slot_eq_exec hwait hpc
    _ = .next (s.drain.jump ((s.pc.setWidth 12).setWidth 16)) := by rw [decodeWord_of_parked h]; rfl
    _ = .next s.drain := by rw [pc_setWidth_of_parked h]; rfl

/-- Settles O49: the slot is a drain of KQ (`slot_of_parked`), and neither it nor what stands around it writes a part
that the statement or `parked` speaks of. -/
theorem parkedMachineStaysParked : Obligations.ParkedMachineStaysParked := by
  unfold Obligations.ParkedMachineStaysParked
  intro s u hs _ due
  have hu : u.parked := parked_of_same hs fun p hp => due.onlyChanges p (by revert p; decide)
  have frame := due.onlyChanges.trans (onlyChanges_drain.trans onlyChanges_afterSlot)
  have answer : step s = .next u.drain.afterSlot := by rw [step_slotDue due, slot_of_parked hu]; rfl
  exact ⟨_, answer, parked_of_same hs fun p hp => frame p (by revert p; decide),
    fun p hp => frame p (by revert p; decide)⟩

end Sys2Proof.Machine
end

section
/-! SUPPORT. Loads, the byte ALU and the random byte (41_alu.md R130 to R144): the flags as numbers, the registers a
result and VF leave under each order, and the frame that every instruction of the family ends in. -/

namespace Sys2Proof.Machine

open State

variable {s t : State}

/-! ### Results and flags as numbers (R144) -/

theorem sub_toNat (a b : Byte) : (a - b).toNat = (a.toNat + 256 - b.toNat) % 256 := by
  rw [BitVec.toNat_sub]
  omega

theorem shiftRight_one_toNat (a : Byte) : (a >>> 1).toNat = a.toNat / 2 := by
  rw [BitVec.toNat_ushiftRight, Nat.shiftRight_one]

theorem shiftLeft_one_toNat (a : Byte) : (a <<< 1).toNat = 2 * a.toNat % 256 := by
  rw [BitVec.toNat_shiftLeft, Nat.shiftLeft_eq, Nat.mul_comm]

theorem carryFlag_toNat (a b : Byte) :
    (flagByte (carryOut a b)).toNat = if 255 < a.toNat + b.toNat then 1 else 0 := by
  simp only [flagByte_toNat, carryOut, decide_eq_true_eq]

theorem noBorrowFlag_toNat (a b : Byte) :
    (flagByte (noBorrow a b)).toNat = if b.toNat < a.toNat then 1 else 0 := by
  simp only [flagByte_toNat, noBorrow, decide_eq_true_eq]

/-- A byte does not exceed itself. -/
theorem noBorrow_self (a : Byte) : noBorrow a a = false := decide_eq_false (Nat.lt_irrefl a.toNat)

theorem rightFlag_toNat (a : Byte) : (flagByte (shiftedOutRight a)).toNat = a.toNat % 2 := by
  rw [flagByte_toNat, shiftedOutRight, ← BitVec.testBit_toNat, Nat.testBit_zero]
  simp only [decide_eq_true_eq]
  split <;> omega

theorem leftFlag_toNat (a : Byte) : (flagByte (shiftedOutLeft a)).toNat = a.toNat / 128 := by
  rw [flagByte_toNat, shiftedOutLeft, ← BitVec.testBit_toNat, Nat.testBit_eq_decide_div_mod_eq]
  simp only [decide_eq_true_eq]
  split <;> omega

/-! ### The frame of a register write and pc + 2 -/

/-- Registers written and then pc + 2, as every instruction of the family ends. -/
theorem nextInstr_frame {regs : List Reg} {ps : List Part} (hr : RegsSameBut regs s t) (h : OnlyChanges ps s t)
    (hpc : .pc ∉ ps) :
    PcMovedBy 2 s t.nextInstr ∧ RegsSameBut regs s t.nextInstr ∧ OnlyChanges (ps ++ [.pc]) s t.nextInstr := by
  have samePc : t.pc = s.pc := h .pc hpc
  exact ⟨pcMovedBy_of_pc_eq (by rw [nextInstr_eq, advance_pc, samePc]), hr, h.advance 2⟩

theorem regsSameBut_setReg (x : Reg) (b : Byte) : RegsSameBut [x] s (s.setReg x b) :=
  fun _ hr => reg_setReg_other (List.ne_of_not_mem_cons hr)

theorem setReg_frame (x : Reg) (b : Byte) :
    PcMovedBy 2 s (s.setReg x b).nextInstr ∧ RegsSameBut [x] s (s.setReg x b).nextInstr ∧
      OnlyChanges [.regs, .pc] s (s.setReg x b).nextInstr :=
  nextInstr_frame (regsSameBut_setReg x b) (onlyChanges_setReg x b) (by decide)

section
variable {x y : Reg} {f : Byte → Byte → Byte} {g : Byte → Byte → Bool}

theorem regsSameBut_vx_vf (h : ∀ r, r ≠ x → r ≠ VF → t.reg r = s.reg r) : RegsSameBut [x, VF] s t := by
  intro r hr
  simp only [List.mem_cons, List.not_mem_nil, or_false, not_or] at hr
  exact h r hr.1 hr.2

theorem resultThenFlag_frame :
    PcMovedBy 2 s (s.resultThenFlag x y f g).nextInstr ∧
      RegsSameBut [x, VF] s (s.resultThenFlag x y f g).nextInstr ∧
      OnlyChanges [.regs, .pc] s (s.resultThenFlag x y f g).nextInstr := by
  refine nextInstr_frame (regsSameBut_vx_vf fun r hx hf => ?_) (onlyChanges_v (s.resultThenFlag x y f g).v) (by decide)
  exact (reg_resultThenFlag x y r f g).trans (by rw [if_neg hf, if_neg hx])

theorem resultAndFlag_frame :
    PcMovedBy 2 s (s.resultAndFlag x y f g).nextInstr ∧
      RegsSameBut [x, VF] s (s.resultAndFlag x y f g).nextInstr ∧
      OnlyChanges [.regs, .pc] s (s.resultAndFlag x y f g).nextInstr :=
  nextInstr_frame (regsSameBut_vx_vf fun _ hx hf => reg_resultAndFlag_other hx hf f g)
    (onlyChanges_resultAndFlag x y f g) (by decide)

/-! ### Vx and VF under each order (R130) -/

/-- Under `table` the result reads the new VF wherever an operand is VF, and is written last. -/
theorem reg_resultAndFlag_table (h : s.params.vfOrder = .table) :
    (s.resultAndFlag x y f g).reg x =
      f (if x = VF then flagByte (g (s.reg x) (s.reg y)) else s.reg x)
        (if y = VF then flagByte (g (s.reg x) (s.reg y)) else s.reg y) := by
  rw [resultAndFlag, h]
  exact (reg_flagThenResult x y x f g).trans (if_pos rfl)

theorem vf_resultAndFlag_table (h : s.params.vfOrder = .table) (hx : x ≠ VF) :
    (s.resultAndFlag x y f g).reg VF = flagByte (g (s.reg x) (s.reg y)) := by
  rw [resultAndFlag, h]
  exact (reg_flagThenResult x y VF f g).trans (by rw [if_neg hx.symm, if_pos rfl])

theorem reg_resultAndFlag_flagLast (h : s.params.vfOrder = .flagLast) (hx : x ≠ VF) :
    (s.resultAndFlag x y f g).reg x = f (s.reg x) (s.reg y) := by
  rw [resultAndFlag, h]
  exact (reg_resultThenFlag x y x f g).trans (by rw [if_neg hx, if_pos rfl])

theorem vf_resultAndFlag_flagLast (h : s.params.vfOrder = .flagLast) :
    (s.resultAndFlag x y f g).reg VF = flagByte (g (s.reg x) (s.reg y)) := by
  rw [resultAndFlag, h]
  exact (reg_resultThenFlag x y VF f g).trans (if_pos rfl)

/-- Where neither operand is VF the order does not matter. -/
theorem reg_resultAndFlag_bothOrders (hx : x ≠ VF) (hy : y ≠ VF) :
    (s.resultAndFlag x y f g).reg x = f (s.reg x) (s.reg y) :=
  (reg_resultAndFlag_of_ne hx hy x f g).trans (if_pos rfl)

theorem vf_resultAndFlag_bothOrders (hx : x ≠ VF) (hy : y ≠ VF) :
    (s.resultAndFlag x y f g).reg VF = flagByte (g (s.reg x) (s.reg y)) :=
  (reg_resultAndFlag_of_ne hx hy VF f g).trans (by rw [if_neg hx.symm, if_pos rfl])

/-! ### The two subtractions (R138, R140) -/

/-- Every case in which VF is an operand, for a result `d` and a flag that are 0 on equal operands, as both
differences are. -/
theorem difference_cases {d : Nat → Nat → Nat} (hd : ∀ a b : Byte, (f a b).toNat = d a.toNat b.toNat)
    (hz : ∀ n, d n n = 0) (hg : ∀ a, g a a = false) {a b c : Nat} (ha : a = (s.reg x).toNat)
    (hb : b = (s.reg y).toNat) (hc : c = (flagByte (g (s.reg x) (s.reg y))).toNat)
    (ht : t = (s.resultAndFlag x y f g).nextInstr) :
    (x ≠ VF → y ≠ VF → (t.reg x).toNat = d a b ∧ (t.reg VF).toNat = c) ∧
    (s.params.vfOrder = .table → x = VF → y ≠ VF → (t.reg VF).toNat = d c b) ∧
    (s.params.vfOrder = .table → x ≠ VF → y = VF → (t.reg x).toNat = d a c ∧ (t.reg VF).toNat = c) ∧
    (x = VF → y = VF → (t.reg VF).toNat = 0) ∧
    (s.params.vfOrder = .flagLast → (t.reg VF).toNat = c ∧ (x ≠ VF → (t.reg x).toNat = d a b)) := by
  subst ha hb hc ht
  refine ⟨fun hx hy => ?_, fun table hx hy => ?_, fun table hx hy => ?_, fun hx hy => ?_,
    fun last => ⟨?_, fun hx => ?_⟩⟩
  all_goals simp only [nextInstr_eq, advance_reg]
  · rw [reg_resultAndFlag_bothOrders hx hy, vf_resultAndFlag_bothOrders hx hy, hd]
    exact ⟨rfl, rfl⟩
  · subst hx
    rw [reg_resultAndFlag_table table, if_pos rfl, if_neg hy, hd]
  · rw [reg_resultAndFlag_table table, vf_resultAndFlag_table table hx, if_neg hx, if_pos hy, hd]
    exact ⟨rfl, rfl⟩
  · subst hx hy
    cases order : s.params.vfOrder with
    | table => rw [reg_resultAndFlag_table order, hd, hz]
    | flagLast => rw [vf_resultAndFlag_flagLast order, hg]; rfl
  · rw [vf_resultAndFlag_flagLast last]
  · rw [reg_resultAndFlag_flagLast last hx, hd]

end

/-! ### The statements -/

/-- Settles O28: each answers one register write (`setReg_frame`), of kk, of Vy or of the sum. -/
theorem loadsAndImmediateAdd : Obligations.LoadsAndImmediateAdd := by
  unfold Obligations.LoadsAndImmediateAdd
  refine fun x y kk s => ⟨⟨_, rfl, reg_setReg_same x, setReg_frame x _⟩,
    ⟨_, rfl, reg_setReg_same x, setReg_frame x _⟩, ⟨_, rfl, ?_, setReg_frame x _⟩⟩
  rw [nextInstr_eq, advance_reg, reg_setReg_same, BitVec.toNat_add]

/-- Settles O29: each answers one register write, of a byte whose bits are those of its number. -/
theorem logicalOperations : Obligations.LogicalOperations := by
  unfold Obligations.LogicalOperations
  refine fun x y s => ⟨⟨_, rfl, fun b _ => ?_, setReg_frame x _⟩, ⟨_, rfl, fun b _ => ?_, setReg_frame x _⟩,
    ⟨_, rfl, fun b _ => ?_, setReg_frame x _⟩⟩
  all_goals rw [nextInstr_eq, advance_reg, reg_setReg_same]
  · rw [BitVec.toNat_or, Nat.testBit_or]
  · rw [BitVec.toNat_and, Nat.testBit_and]
  · rw [BitVec.toNat_xor, Nat.testBit_xor]

/-- Settles O30: VF is written after the sum, so it holds the carry whatever x is (`reg_resultThenFlag`). -/
theorem addSetsCarry : Obligations.AddSetsCarry := by
  unfold Obligations.AddSetsCarry
  refine fun x y s => ⟨_, rfl, ?_, fun hx => ?_, resultThenFlag_frame⟩
  all_goals rw [nextInstr_eq, advance_reg, reg_resultThenFlag]
  · rw [if_pos rfl, carryFlag_toNat]
  · rw [if_neg hx, if_pos rfl, BitVec.toNat_add]

/-- Settles O31, by `difference_cases` of Vx - Vy. -/
theorem subtractAndFlag : Obligations.SubtractAndFlag := by
  unfold Obligations.SubtractAndFlag
  intro x y s
  obtain ⟨pc, regs, rest⟩ := resultAndFlag_frame (s := s) (x := x) (y := y) (f := fun a b => a - b) (g := noBorrow)
  refine ⟨_, rfl, pc, regs, rest, fun a b f ha hb hf => ?_⟩
  rw [ha, hb, ← noBorrowFlag_toNat] at hf
  exact difference_cases (f := fun a b => a - b) (d := fun m n => (m + 256 - n) % 256) sub_toNat (by omega)
    noBorrow_self ha hb hf rfl

/-- Settles O32, by `difference_cases` of Vy - Vx. -/
theorem reverseSubtractAndFlag : Obligations.ReverseSubtractAndFlag := by
  unfold Obligations.ReverseSubtractAndFlag
  intro x y s
  obtain ⟨pc, regs, rest⟩ := resultAndFlag_frame (s := s) (x := x) (y := y) (f := fun a b => b - a)
    (g := fun a b => noBorrow b a)
  refine ⟨_, rfl, pc, regs, rest, fun a b f ha hb hf => ?_⟩
  rw [ha, hb, ← noBorrowFlag_toNat] at hf
  exact difference_cases (g := fun a b => noBorrow b a) (d := fun m n => (n + 256 - m) % 256)
    (fun a b => sub_toNat b a) (by omega) noBorrow_self ha hb hf rfl

/-- Settles O33: the operands are Vx twice, so y is not read; with x = F the order decides (R130). -/
theorem shiftsByOne : Obligations.ShiftsByOne := by
  unfold Obligations.ShiftsByOne
  refine fun x y s => ⟨
    ⟨_, rfl, fun hx => ?_, fun hx table => ?_, fun hx last => ?_, fun _ => rfl, resultAndFlag_frame⟩,
    ⟨_, rfl, fun hx => ?_, fun hx table => ?_, fun hx last => ?_, fun _ => rfl, resultAndFlag_frame⟩⟩
  all_goals simp only [nextInstr_eq, advance_reg]
  · rw [reg_resultAndFlag_bothOrders hx hx, vf_resultAndFlag_bothOrders hx hx, shiftRight_one_toNat, rightFlag_toNat]
    exact ⟨rfl, rfl⟩
  · subst hx
    rw [reg_resultAndFlag_table table, if_pos rfl, shiftRight_one_toNat, rightFlag_toNat]
    omega
  · subst hx
    rw [vf_resultAndFlag_flagLast last, rightFlag_toNat]
  · rw [reg_resultAndFlag_bothOrders hx hx, vf_resultAndFlag_bothOrders hx hx, shiftLeft_one_toNat, leftFlag_toNat]
    exact ⟨rfl, rfl⟩
  · subst hx
    rw [reg_resultAndFlag_table table, if_pos rfl, shiftLeft_one_toNat, leftFlag_toNat]
    omega
  · subst hx
    rw [vf_resultAndFlag_flagLast last, leftFlag_toNat]

/-- Settles O34: the draw counts on, and the byte drawn goes to Vx under the mask. -/
theorem randomByteUnderMask : Obligations.RandomByteUnderMask := by
  unfold Obligations.RandomByteUnderMask
  intro x kk s
  obtain ⟨pc, regs, rest⟩ := nextInstr_frame (s := s)
    (regsSameBut_setReg (s := (drawByte s).2) x ((drawByte s).1 &&& kk))
    ((onlyChanges_draws (s.draws + 1)).trans (onlyChanges_setReg x _)) (by decide)
  refine ⟨_, rfl, fun b _ => ?_, rfl, pc, regs, rest.mono (by decide)⟩
  rw [nextInstr_eq, advance_reg, reg_setReg_same, BitVec.toNat_and, Nat.testBit_and]
  rfl

end Sys2Proof.Machine
end

section
/-! SUPPORT. The address register and the memory transfers (42_index_memory.md R150 to R156): I as a number after each
write of it, the bytes and registers a transfer leaves, and the words whose faults are recorded. -/

namespace Sys2Proof.Machine

open State

variable {s : State} {x : Reg}

/-! ### The address register (R150 to R152) -/

theorem setI_frame (a : Addr) :
    PcMovedBy 2 s { s with I := a }.nextInstr ∧ OnlyChanges [.index, .pc] s { s with I := a }.nextInstr :=
  ⟨pcMovedBy_of_pc_eq rfl, (onlyChanges_I a).advance 2⟩

/-- I plus a byte wraps mod 4096 (R151). -/
theorem index_add_byte_toNat (a : Addr) (b : Byte) : (a + b.setWidth 12).toNat = (a.toNat + b.toNat) % 4096 := by
  rw [BitVec.toNat_add, BitVec.toNat_setWidth_of_le (by decide)]

/-- A glyph takes five bytes, and the low nibble of Vx names it (R152). -/
theorem glyphAddr_toNat (s : State) (x : Reg) : (s.glyphAddr x).toNat = (s.reg x).toNat % 16 * 5 := by
  have low : (s.reg x &&& 0xF).toNat = (s.reg x).toNat % 16 := by
    rw [BitVec.toNat_and]
    exact Nat.and_two_pow_sub_one_eq_mod _ 4
  rw [glyphAddr, BitVec.toNat_ofNat, low, Nat.mod_eq_of_lt (by omega)]

/-- Settles O35: each answers one write of I (`setI_frame`), of nnn, of the wrapped sum or of a glyph's address. -/
theorem addressRegisterWrites : Obligations.AddressRegisterWrites := by
  unfold Obligations.AddressRegisterWrites
  exact fun x nnn s => ⟨⟨_, rfl, rfl, setI_frame nnn⟩, ⟨_, rfl, index_add_byte_toNat s.I (s.reg x), setI_frame _⟩,
    ⟨_, rfl, glyphAddr_toNat s x, setI_frame _⟩⟩

/-! ### Words of the transfers (30_encoding.md R85) -/

/-- The word of a transfer, whose low byte names it. -/
theorem formatFxKK_toNat (x : Reg) (kk : Byte) : (formatXKK 0xF x kk).toNat = 0xF000 + kk.toNat + 256 * x.toNat := by
  rw [formatXKK_toNat, Nat.add_right_comm]
  rfl

/-! ### Bytes stored from I on (R153, R154) -/

/-- Each byte of a run stored at I stands at its own address. -/
theorem load_storedAtI {bs : List Byte} {j : Nat} (hj : j < bs.length)
    (fits : s.I.toNat + bs.length ≤ Config.memBytes) :
    (s.storeList (s.dataAddr 0) bs).nextInstr.load (s.dataAddr j) = bs[j] :=
  load_storeList_inside (s := s) bs j hj fits

/-- A run of bytes stored at I leaves every other byte, and every other part but pc. -/
theorem storedAtI_frame {bs : List Byte} {n : Nat} (hn : bs.length = n) :
    MemorySameOutside (s.dataAddr 0) n s (s.storeList (s.dataAddr 0) bs).nextInstr ∧
      PcMovedBy 2 s (s.storeList (s.dataAddr 0) bs).nextInstr ∧
      OnlyChanges [.memory, .pc] s (s.storeList (s.dataAddr 0) bs).nextInstr := by
  subst hn
  exact ⟨fun _ => load_storeList_outside (s := s) bs, pcMovedBy_of_pc_eq rfl, (onlyChanges_storeList _ bs).advance 2⟩

theorem bcdDigits_length (b : Byte) : (bcdDigits b).length = 3 := rfl

/-- Each digit fits a byte. -/
theorem bcdDigits_toNat (b : Byte) {j : Nat} (hj : j < (bcdDigits b).length) :
    (bcdDigits b)[j].toNat = [b.toNat / 100, b.toNat / 10 % 10, b.toNat % 10][j] := by
  have digits : (bcdDigits b).map BitVec.toNat = [b.toNat / 100, b.toNat / 10 % 10, b.toNat % 10] := by
    have := b.isLt
    simp only [bcdDigits, List.map_cons, List.map_nil, BitVec.toNat_ofNat, List.cons.injEq, and_true]
    omega
  simp only [← digits, List.getElem_map]

/-- The digits stored at I read back as numbers, hundreds first. -/
theorem load_storedDigits_toNat (b : Byte) (h : s.I.toNat ≤ 0xFFD) {j : Nat} (hj : j < 3) :
    ((s.storeList (s.dataAddr 0) (bcdDigits b)).nextInstr.load (s.dataAddr j)).toNat =
      [b.toNat / 100, b.toNat / 10 % 10, b.toNat % 10][j] := by
  have fits : s.I.toNat + (bcdDigits b).length ≤ Config.memBytes := Nat.add_le_add_right h 3
  exact (congrArg BitVec.toNat (load_storedAtI hj fits)).trans (bcdDigits_toNat b hj)

/-- Settles O36: in range by the three digits read back (`load_storedDigits_toNat`), else by the fault of R211. -/
theorem storeBcd : Obligations.StoreBcd := by
  unfold Obligations.StoreBcd
  refine fun x s => ⟨fun h => ?_, fun h => ?_⟩
  · have completed : faultCondition (.ldB x) s = none := if_neg (by omega)
    have digit {j : Nat} (hj : j < 3) := load_storedDigits_toNat (s.reg x) h hj
    exact ⟨_, exec_ldB_completed completed, digit (j := 0) (by decide), digit (j := 1) (by decide),
      digit (j := 2) (by decide), storedAtI_frame (bcdDigits_length _)⟩
  · exact ⟨_, _, exec_faults (.ldB x) (if_pos (by omega)), formatFxKK_toNat x 0x33, raised_raiseFault _ _⟩

theorem regsUpTo_length : (s.regsUpTo x).length = x.toNat + 1 := by simp [regsUpTo]

theorem regsUpTo_getElem {j : Reg} (h : j.toNat < (s.regsUpTo x).length) : (s.regsUpTo x)[j.toNat] = s.reg j := by
  simp [regsUpTo]

/-- Settles O37: in range by the run of V0 to Vx (`load_storedAtI`, `regsUpTo_getElem`), else by the fault of R211. -/
theorem storeRegisters : Obligations.StoreRegisters := by
  unfold Obligations.StoreRegisters
  refine fun x s => ⟨fun h => ?_, fun h => ?_⟩
  · have completed : faultCondition (.storeRegs x) s = none := if_neg (Nat.not_lt.mpr h)
    have fits : s.I.toNat + (s.regsUpTo x).length ≤ Config.memBytes := by
      rw [regsUpTo_length]
      exact Nat.succ_le_succ h
    refine ⟨_, exec_storeRegs_completed completed, fun j hj => ?_, storedAtI_frame regsUpTo_length⟩
    have hlt : j.toNat < (s.regsUpTo x).length := by
      rw [regsUpTo_length]
      exact Nat.lt_succ_of_le hj
    exact (load_storedAtI hlt fits).trans (regsUpTo_getElem hlt)
  · exact ⟨_, _, exec_faults (.storeRegs x) (if_pos h), formatFxKK_toNat x 0x55, raised_raiseFault _ _⟩

/-! ### Registers loaded from I on (R155) -/

/-- Settles O38: in range by the register after the load (`reg_loadRegsUpTo`), else by the fault of R211. -/
theorem loadRegisters : Obligations.LoadRegisters := by
  unfold Obligations.LoadRegisters
  refine fun x s => ⟨fun h => ?_, fun h => ?_⟩
  · have completed : faultCondition (.loadRegs x) s = none := if_neg (Nat.not_lt.mpr h)
    refine ⟨_, exec_loadRegs_completed completed, fun j hj => ?_, fun j hj => ?_, pcMovedBy_of_pc_eq rfl,
      (onlyChanges_loadRegsUpTo x).advance 2⟩
    · rw [nextInstr_eq, advance_reg, reg_loadRegsUpTo, if_pos hj, dataAddr]
    · rw [nextInstr_eq, advance_reg, reg_loadRegsUpTo, if_neg (Nat.not_le.mpr hj)]
  · exact ⟨_, _, exec_faults (.loadRegs x) (if_pos h), formatFxKK_toNat x 0x65, raised_raiseFault _ _⟩

end Sys2Proof.Machine
end

section
/-! SUPPORT. 00E0, and Dxyn executed twice (43_display.md R170, R171): with VF no coordinate the second draw has the
sprite bits of the first, so each pixel is flipped twice or not at all. -/

namespace Sys2Proof.Machine

open State

variable {s : State} {x y n : BitVec 4} {cv : Canvas}

/-! ### 00E0 (R170) -/

/-- Settles O39: no pixel of `clearFrame` is set. -/
theorem clearFramebuffer : Obligations.ClearFramebuffer := by
  unfold Obligations.ClearFramebuffer
  exact fun s => ⟨_, rfl, pixel_clearFrame, rfl, pcMovedBy_of_pc_eq rfl, (onlyChanges_fb_dirty _ true).advance 2⟩

/-! ### Framebuffers pixel by pixel (R30) -/

theorem pixel_eq_getLsbD (fb : Frame) {r c : Nat} (hr : r < 32) (hc : c < 64) :
    Frame.pixel fb r c = fb[r].getLsbD c := dif_pos ⟨hr, hc⟩

/-- Framebuffers with the same pixels on the grid are equal. -/
theorem frame_ext {fb fb' : Frame} (h : ∀ r c, r < 32 → c < 64 → Frame.pixel fb r c = Frame.pixel fb' r c) :
    fb = fb' := by
  refine Vector.ext fun r hr => BitVec.eq_of_getLsbD_eq fun c hc => ?_
  rw [← pixel_eq_getLsbD fb hr hc, ← pixel_eq_getLsbD fb' hr hc]
  exact h r c hr hc

/-! ### The second draw (R171) -/

/-- A draw writes no register but VF, so a sprite placed by another register stays in its place. -/
theorem reg_afterDraw {r : Reg} (h : r ≠ VF) : (s.withDrawing cv).nextInstr.reg r = s.reg r :=
  (reg_withDrawing cv r).trans (if_neg h)

/-- The sprite of a second draw: neither I, memory nor the place has changed. -/
theorem spriteBit_afterDraw (hx : x ≠ VF) (hy : y ≠ VF) (r c : Nat) :
    spriteBit (s.withDrawing cv).nextInstr n.toNat ((s.withDrawing cv).nextInstr.spriteCol x)
        ((s.withDrawing cv).nextInstr.spriteRow y) r c =
      spriteBit s n.toNat (s.spriteCol x) (s.spriteRow y) r c := by
  rw [spriteCol, spriteRow, reg_afterDraw hx, reg_afterDraw hy]
  rfl

/-- Each pixel is flipped by both draws or by neither. -/
theorem fb_drawing_twice (hx : x ≠ VF) (hy : y ≠ VF) :
    (drawing x y n (s.withDrawing (drawing x y n s)).nextInstr).fb = s.fb := by
  refine frame_ext fun r c hr hc => ?_
  rw [pixel_drawing hr hc, spriteBit_afterDraw hx hy, nextInstr_eq, advance_fb, withDrawing_fb, pixel_drawing hr hc,
    Bool.xor_assoc, Bool.xor_self, Bool.xor_false]

/-- A clear pixel that the first draw sets is met by the second. -/
theorem hit_drawing_twice (hx : x ≠ VF) (hy : y ≠ VF) {r c : Nat} (hr : r < 32) (hc : c < 64)
    (hbit : spriteBit s n.toNat (s.spriteCol x) (s.spriteRow y) r c = true) (hclear : Frame.pixel s.fb r c = false) :
    (drawing x y n (s.withDrawing (drawing x y n s)).nextInstr).hit = true := by
  refine hit_drawing.mpr ⟨r, c, hr, hc, ?_, (spriteBit_afterDraw hx hy r c).trans hbit⟩
  rw [nextInstr_eq, advance_fb, withDrawing_fb, pixel_drawing hr hc, hclear, hbit]
  rfl

/-- Settles O41: the second draw stays in range, as I is unchanged; its pixels are `fb_drawing_twice`, its collision
`hit_drawing_twice`. -/
theorem drawTwiceRestores : Obligations.DrawTwiceRestores := by
  unfold Obligations.DrawTwiceRestores
  intro x y n s t u hx hy inRange first second
  cases (exec_drw_inRange inRange).symm.trans first
  cases (exec_drw_inRange (s := (s.withDrawing (drawing x y n s)).nextInstr) inRange).symm.trans second
  refine ⟨fb_drawing_twice hx hy, fun ⟨r, c, hr, hc, hbit, hclear⟩ => ?_⟩
  rw [nextInstr_eq, advance_reg, reg_withDrawing, if_pos rfl, hit_drawing_twice hx hy hr hc hbit hclear]
  rfl

end Sys2Proof.Machine
end

section
/-! SUPPORT. The key and timer instructions and the key-wait slot (44_input_timers.md R180 to R186): a key taken from a
wait, the key that ends one, and the skips on a key's state. -/

namespace Sys2Proof.Machine

open State

variable {s : State} {x : Reg}

theorem onlyChanges_refl : OnlyChanges [] s s := by
  intro p _
  cases p <;> simp [Part.Same]

/-! ### A key taken (R183, R186) -/

theorem reg_takeKey_toNat (k : KeyIndex) : ((s.takeKey x k).reg x).toNat = k.toNat := by
  rw [takeKey_eq, advance_reg, reg_setReg_same, BitVec.toNat_setWidth_of_le (by decide)]

/-- A key taken is one register write and pc + 2. -/
theorem takeKey_frame (k : KeyIndex) :
    PcMovedBy 2 s (s.takeKey x k) ∧ RegsSameBut [x] s (s.takeKey x k) ∧ OnlyChanges [.regs, .pc] s (s.takeKey x k) :=
  setReg_frame x (k.setWidth 8)

/-! ### The key-wait slot (R186) -/

variable {downs : List KeyIndex} {k : KeyIndex}

/-- While a key wait is pending a slot fetches nothing: it is the key-wait slot on the drained state. -/
theorem slot_eq_keyWaitSlot (ha : s.awaitKey = some x) :
    slot s = .next (s.drain.keyWaitSlot x (downsOf s.kq)) := by
  rw [slot, drain_awaitKey, ha]

theorem keyWaitSlot_ends (h : s.waitedKey downs = some k) :
    s.keyWaitSlot x downs = { s.takeKey x k with awaitKey := none } := by
  rw [keyWaitSlot, h]

theorem keyWaitSlot_goes_on (h : s.waitedKey downs = none) : s.keyWaitSlot x downs = s := by
  rw [keyWaitSlot, h]

/-- Under `edge` the drain's first key-down ends the wait. -/
theorem waitedKey_edge (h : s.params.keyWait = .edge) : s.waitedKey downs = downs.head? := by
  rw [waitedKey, h]

/-- Under `level` the least held key ends the wait. -/
theorem waitedKey_level (h : s.params.keyWait = .level) : s.waitedKey downs = s.leastKey := by
  rw [waitedKey, h]

/-- What the end of a wait leaves: the key in Vx, no wait, pc past Fx0A, and the rest as it was. -/
theorem keyWaitSlot_ends_frame (h : s.waitedKey downs = some k) :
    ((s.keyWaitSlot x downs).reg x).toNat = k.toNat ∧ (s.keyWaitSlot x downs).awaitKey = none ∧
      PcMovedBy 2 s (s.keyWaitSlot x downs) ∧ RegsSameBut [x] s (s.keyWaitSlot x downs) ∧
      OnlyChanges [.regs, .wait, .pc] s (s.keyWaitSlot x downs) := by
  rw [keyWaitSlot_ends h]
  obtain ⟨pc, regs, rest⟩ := takeKey_frame (s := s) (x := x) k
  exact ⟨reg_takeKey_toNat k, rfl, pc, regs, (rest.trans (onlyChanges_awaitKey none)).mono (by decide)⟩

/-- Settles O19: the slot is the key-wait slot on the drained state, which ends the wait on the key that
P_KEYWAIT_MODE names (`keyWaitSlot_ends_frame`) and without one does nothing (`keyWaitSlot_goes_on`). -/
theorem keyWaitSlotServesWait : Obligations.KeyWaitSlotServesWait := by
  unfold Obligations.KeyWaitSlotServesWait
  refine fun s x ha => ⟨_, slot_eq_keyWaitSlot ha, fun k key => ?ends, fun noKey => ?goesOn⟩
  case ends =>
    have waited : s.drain.waitedKey (downsOf s.kq) = some k := by
      rcases key with ⟨edge, before, after, hq, ups⟩ | ⟨level, held, least⟩
      · rw [waitedKey_edge (s := s.drain) edge, hq, downsOf_append_down ups, List.head?_cons]
      · rw [waitedKey_level (s := s.drain) level, leastKey_eq_some held least]
    exact keyWaitSlot_ends_frame waited
  case goesOn =>
    have waited : s.drain.waitedKey (downsOf s.kq) = none := by
      rcases noKey with ⟨edge, ups⟩ | ⟨level, released⟩
      · rw [waitedKey_edge (s := s.drain) edge, downsOf_eq_nil ups, List.head?_nil]
      · rw [waitedKey_level (s := s.drain) level, leastKey_eq_none released]
    rw [keyWaitSlot_goes_on waited]
    exact ⟨ha, onlyChanges_drain, onlyChanges_refl⟩

/-! ### The skips on a key (R180, R181) -/

/-- The key whose index is a byte of at most 0xF: the byte's low nibble names it. -/
theorem keyDown_setWidth {i : Byte} {b : Bool} (h : s.keys[i.toNat]? = some b) :
    i.toNat ≤ 0xF ∧ s.keyDown (i.setWidth 4) = b := by
  obtain ⟨hi, hb⟩ := Vector.getElem?_eq_some_iff.mp h
  have low : (i.setWidth 4).toNat = i.toNat := by rw [BitVec.toNat_setWidth, Nat.mod_eq_of_lt hi]
  refine ⟨Nat.le_of_lt_succ hi, ?_⟩
  simp only [keyDown, low, hb]

/-- A skip on the key in Vx is a skip on that key's state. -/
theorem skipOnKey_of_key {w : Word} {taken : Bool → Bool} {b : Bool} (h : s.keys[(s.reg x).toNat]? = some b) :
    s.skipOnKey w x taken = s.skipIf (taken b) := by
  obtain ⟨inRange, key⟩ := keyDown_setWidth h
  rw [skipOnKey_of_le inRange, key]

theorem exec_skp_of_key {b : Bool} (h : s.keys[(s.reg x).toNat]? = some b) :
    exec (.skp x) s = .next (s.skipIf b) := congrArg Host.Outcome.next (skipOnKey_of_key h)

theorem exec_sknp_of_key {b : Bool} (h : s.keys[(s.reg x).toNat]? = some b) :
    exec (.sknp x) s = .next (s.skipIf !b) := congrArg Host.Outcome.next (skipOnKey_of_key h)

/-- The word of a key skip, whose low byte names it (30_encoding.md R85). -/
theorem formatExKK_toNat (x : Reg) (kk : Byte) : (formatXKK 0xE x kk).toNat = 0xE000 + kk.toNat + 256 * x.toNat := by
  rw [formatXKK_toNat, Nat.add_right_comm]
  rfl

/-- Settles O42: each answers a skip on the state of key Vx (`skipOnKey_of_key`), or above 0xF the fault of R211. -/
theorem keySkips : Obligations.KeySkips := by
  unfold Obligations.KeySkips
  refine fun x s => ⟨fun b h => ⟨?skp, ?sknp⟩, fun h => ⟨?skpFaults, ?sknpFaults⟩⟩
  case skp => exact exec_skipIf (exec_skp_of_key h) rfl
  case sknp => exact exec_skipIf (exec_sknp_of_key h) (by cases b <;> rfl)
  case skpFaults =>
    exact ⟨_, _, exec_faults (.skp x) (if_pos h), formatExKK_toNat x 0x9E, raised_raiseFault _ _⟩
  case sknpFaults =>
    exact ⟨_, _, exec_faults (.sknp x) (if_pos h), formatExKK_toNat x 0xA1, raised_raiseFault _ _⟩

/-! ### The key wait begins (R183) -/

/-- Fx0A begins a wait unless `level` finds a key held. -/
theorem exec_ldVxK_waits (h : s.params.keyWait = .edge ∨ s.leastKey = none) :
    exec (.ldVxK x) s = .next { s with awaitKey := some x } := by
  rw [exec, execLdVxK]
  split
  case h_1 _ level held =>
    rcases h with edge | released
    · cases level.symm.trans edge
    · cases held.symm.trans released
  all_goals rfl

/-- Under `level` Fx0A takes the least held key at once. -/
theorem exec_ldVxK_takes (level : s.params.keyWait = .level) (h : s.leastKey = some k) :
    exec (.ldVxK x) s = .next (s.takeKey x k) := by
  rw [exec, execLdVxK, level, h]

/-- Settles O43, by whether `level` finds a key held; `takeKey_frame` says what taking it leaves. -/
theorem keyWaitBegins : Obligations.KeyWaitBegins := by
  unfold Obligations.KeyWaitBegins
  refine fun x s => ⟨fun h => ?waits, fun k level held least => ?takes⟩
  case waits =>
    exact ⟨_, exec_ldVxK_waits (h.imp_right leastKey_eq_none), rfl, onlyChanges_awaitKey (some x)⟩
  case takes =>
    exact ⟨_, exec_ldVxK_takes level (leastKey_eq_some held least), reg_takeKey_toNat k, takeKey_frame k⟩

/-! ### The timer moves (R182, R184, R185) -/

/-- Settles O44: each answers one write, of Vx, DT or ST, and pc + 2; the emitted events are no part of any. -/
theorem timerMoves : Obligations.TimerMoves := by
  unfold Obligations.TimerMoves
  exact fun x s => ⟨⟨_, rfl, reg_setReg_same x, setReg_frame x s.dt⟩,
    ⟨_, rfl, rfl, pcMovedBy_of_pc_eq rfl, (onlyChanges_dt (s.reg x)).advance 2⟩,
    ⟨_, rfl, rfl, pcMovedBy_of_pc_eq rfl, (onlyChanges_st (s.reg x)).advance 2⟩⟩

end Sys2Proof.Machine
end

section
/-! SUPPORT. The default row (45_unrecognized.md R200): what its execution changes, and the fetch that comes to it. -/

namespace Sys2Proof.Machine

open State

variable {s : State}

/-- The default row emits one event and moves pc (R200). -/
theorem dw_frame (w : Word) :
    PcMovedBy 2 s (s.emit (.diag s.pc w)).nextInstr ∧ OnlyChanges [.outputs, .pc] s (s.emit (.diag s.pc w)).nextInstr :=
  ⟨pcMovedBy_of_pc_eq rfl, (onlyChanges_out _).advance 2⟩

/-- A fetch below the end of memory executes the word at pc (30_encoding.md R84). -/
theorem fetchExec_of_le (hp : s.pc.toNat ≤ 0xFFE) : fetchExec s = exec (decodeWord s.fetchWord) s :=
  if_neg (Nat.not_lt.mpr hp)

/-- A fetched word that no row selects comes to the default row (30_encoding.md R87). -/
theorem fetchExec_of_unselected (hp : s.pc.toNat ≤ 0xFFE) (h : ∀ r ∈ opRows, r.selects s.fetchWord = false) :
    fetchExec s = exec (.dw s.fetchWord) s := by
  rw [fetchExec_of_le hp, decodeWord_of_unrecognized _ (unrecognized_iff.mpr h)]

/-- Settles O45: the default row's frame (`dw_frame`), which a fetch in memory comes to with room for pc + 2. -/
theorem unrecognizedWordRunsOn : Obligations.UnrecognizedWordRunsOn := by
  unfold Obligations.UnrecognizedWordRunsOn
  refine ⟨fun w s => ⟨_, rfl, rfl, dw_frame w⟩, fun s hp h => ?fetched⟩
  case fetched =>
    obtain ⟨moved, frame⟩ := dw_frame (s := s) s.fetchWord
    exact ⟨_, fetchExec_of_unselected hp h, rfl, moved (by omega), frame⟩

end Sys2Proof.Machine
end

section
/-! SUPPORT. Faults (60_exceptions.md R211, R212, R217): when they are raised, what they cut short, and what keeps
the latch. -/

namespace Sys2Proof.Machine

open State

variable {s t u : State} {rest : List Input}

/-! ### The fault table (R211) -/

/-- A fetch past the last word of memory faults (30_encoding.md R84). -/
theorem fetchExec_of_gt (hp : 0xFFE < s.pc.toNat) :
    fetchExec s = .next (s.raiseFault .fetchOutOfRange .fetch) := if_pos hp

/-- Settles O20: an instruction raises the fault of its condition (`exec_faults`) or completes (`exec_completes`), and
a fetch is cut at 0xFFE. -/
theorem faultsExactlyByTable : Obligations.FaultsExactlyByTable := by
  unfold Obligations.FaultsExactlyByTable
  refine ⟨fun i s c f h => ⟨_, exec_faults i h, raised_raiseFault c f⟩, fun i s h => ?completes,
    fun s hp => ⟨_, fetchExec_of_gt hp, raised_raiseFault _ _⟩, fun s => fetchExec_of_le, by decide⟩
  case completes =>
    obtain ⟨t, e, kept⟩ := exec_completes i h
    exact ⟨t, e, by simp [Part.Same, kept.fault, kept.run, kept.slotsLeft]⟩

/-! ### What follows a slot (R212, R222, R232) -/

theorem afterSlot_of_fault (h : s.fault ≠ none) : s.afterSlot = { s with slotsLeft := 0 } :=
  if_pos (Option.isSome_iff_ne_none.mpr h)

/-- Without a fault the last slot is followed by the end of the tick. -/
theorem afterSlot_of_last (h : s.fault = none) (h0 : s.slotsLeft = 0) : s.afterSlot = s.tickEnd := by
  rw [afterSlot, if_neg (by simp [h]), if_pos h0]

theorem afterStep_of_fault (h : s.fault ≠ none) : s.afterStep = s.reply .ok := by
  rw [afterStep, if_pos (Option.isSome_iff_ne_none.mpr h)]

/-- Without a fault a single step publishes, DIRTY or not. -/
theorem afterStep_of_noFault (h : s.fault = none) : s.afterStep = s.publish.reply .ok := by
  rw [afterStep, if_neg (by simp [h])]

theorem step_slotDue_next (due : SlotDue s u) (e : slot u = .next t) : step s = .next t.afterSlot := by
  rw [step_slotDue due, e, Answer.andThen_next]

theorem step_singleStep (h0 : s.slotsLeft = 0) (hi : s.inputs = .step :: rest) (hr : s.run ≠ .running)
    (hf : s.fault = none) (e : slot { s with inputs := rest } = .next t) : step s = .next t.afterStep := by
  rw [step_serves h0 hi, serve_step_accepted (s := { s with inputs := rest }) hr hf, e, Answer.andThen_next]

/-- Settles O21: with a fault latched, only the count of slots follows a slot of a tick, and only the result a single
step. -/
theorem faultAbandonsTickAndPublish : Obligations.FaultAbandonsTickAndPublish := by
  unfold Obligations.FaultAbandonsTickAndPublish
  refine ⟨fun s u t due e hf => ?tick, fun rest s t h0 hi hr hs e hf => ?single⟩
  case tick =>
    refine ⟨_, step_slotDue_next due e, ?_⟩
    rw [afterSlot_of_fault hf]
    exact ⟨rfl, onlyChanges_slotsLeft 0⟩
  case single =>
    refine ⟨_, step_singleStep h0 hi hr hs e, ?_⟩
    rw [afterStep_of_fault hf]
    exact ⟨rfl, onlyChanges_out _⟩

/-! ### What keeps the latch (R212, R217) -/

theorem afterSlot_fault (s : State) : s.afterSlot.fault = s.fault := onlyChanges_afterSlot .latch (by decide)

theorem tickEnd_fault (s : State) : s.tickEnd.fault = s.fault := onlyChanges_tickEnd .latch (by decide)

/-- A slot latches a fault and clears none. -/
theorem SlotDone.fault_ne_none (d : SlotDone s t) (h : s.fault ≠ none) : t.fault ≠ none := by
  rcases d.control with ⟨hf, -, -⟩ | ⟨hf, -, -⟩
  · rwa [hf]
  · exact hf

/-- The next state, if the answer is one, has FAULT set if `s` has. -/
def KeepsLatch (s : State) (a : Answer) : Prop := ∀ t, a = .next t → s.fault ≠ none → t.fault ≠ none

theorem keepsLatch_next (h : t.fault = s.fault) : KeepsLatch s (.next t) := by
  rintro u ⟨⟩ hf
  rwa [h]

theorem tickSlot_keepsLatch (k : Nat) (s : State) : KeepsLatch s (tickSlot k s) := by
  obtain ⟨u, e, d⟩ := slot_done { s with slotsLeft := k }
  rw [tickSlot, e, Answer.andThen_next]
  rintro t ⟨⟩ hf
  rw [afterSlot_fault]
  exact d.fault_ne_none hf

theorem tick_keepsLatch (s : State) : KeepsLatch s (tick s) := by
  rw [tick]
  split
  case h_1 => exact tickSlot_keepsLatch _ s
  case h_2 => exact keepsLatch_next (tickEnd_fault s)
  case h_3 => exact keepsLatch_next rfl

/-- A request made where it is not accepted answers USAGE_ERROR (R214). -/
theorem request_refused {accepted : Bool} {effect : State} (h : accepted = false) :
    s.request accepted effect = s.reply .usageError := if_neg (by simp [h])

/-- A request keeps FAULT, taken or refused, where its effect does. -/
theorem request_fault {accepted : Bool} {effect : State} (h : effect.fault = s.fault) :
    (s.request accepted effect).fault = s.fault := by
  rw [request]
  split
  · exact h
  · rfl

theorem togglePause_fault (s : State) : s.togglePause.fault = s.fault := by
  rw [togglePause]
  split <;> rfl

theorem loadProgram_fault (s : State) (image : Bytes) : (s.loadProgram image).fault = s.fault := by
  rw [loadProgram]
  split <;> rfl

/-- STEP is refused while Running or with a fault latched (R230). -/
theorem serve_step_refused (h : s.run = .running ∨ s.fault ≠ none) :
    serve .step s = .next (s.reply .usageError) := by
  refine if_neg ?_
  rcases h with h | h <;> simp [halted, h]

/-- A request accepted only while not Running is refused while Running (R230). -/
theorem request_halted_refused {effect : State} (h : s.run = .running) :
    s.request s.halted effect = s.reply .usageError := request_refused (by simp [halted, h])

/-- The requests that clear FAULT where they are accepted (R212). -/
def ClearsFault (r : Input) : Prop := r = .reset ∨ ∃ blob, r = .loadSnapshot blob

/-- An event that clears no fault keeps the latch, and so does one that would, served while Running. -/
theorem serve_keepsLatch {r : Input} (h : ¬(s.run ≠ .running ∧ ClearsFault r)) : KeepsLatch s (serve r s) := by
  cases r with
  | tick => exact tick_keepsLatch s
  | step =>
    intro t e hf
    cases (serve_step_refused (.inr hf)).symm.trans e
    exact hf
  | key e => exact keepsLatch_next rfl
  | setRate v => exact keepsLatch_next rfl
  | start => exact keepsLatch_next (request_fault rfl)
  | stop => exact keepsLatch_next (request_fault rfl)
  | togglePause => exact keepsLatch_next (request_fault (togglePause_fault s))
  | loadProgram image => exact keepsLatch_next (request_fault (loadProgram_fault s image))
  | save => exact keepsLatch_next (request_fault rfl)
  | reset =>
    have running : s.run = .running := by_contra fun hr => h ⟨hr, .inl rfl⟩
    rw [serve, request_halted_refused running]
    exact keepsLatch_next rfl
  | loadSnapshot blob =>
    have running : s.run = .running := by_contra fun hr => h ⟨hr, .inr ⟨blob, rfl⟩⟩
    rw [serve, request_halted_refused running]
    exact keepsLatch_next rfl

/-- The step from `s` serves a RESET or LOAD_SNAPSHOT that is accepted. -/
def EndsFault (s : State) : Prop :=
  s.slotsLeft = 0 ∧ s.run ≠ .running ∧
    ∃ rest, s.inputs = .reset :: rest ∨ ∃ blob, s.inputs = .loadSnapshot blob :: rest

/-- Every other step keeps the latch: a slot of a tick, a TICK, and an event served. -/
theorem step_keepsLatch (h : ¬EndsFault s) : KeepsLatch s (step s) := by
  cases hk : s.slotsLeft with
  | zero =>
    cases hi : s.inputs with
    | nil =>
      rw [step_ticks hk hi]
      exact tick_keepsLatch s
    | cons r rest =>
      rw [step_serves hk hi]
      refine serve_keepsLatch (s := { s with inputs := rest }) fun ⟨notRunning, clears⟩ => ?_
      refine h ⟨hk, notRunning, rest, ?_⟩
      rcases clears with rfl | ⟨blob, rfl⟩
      · exact .inl hi
      · exact .inr ⟨blob, hi⟩
  | succ k =>
    by_cases posted : ∃ e rest, s.inputs = .key e :: rest
    · obtain ⟨e, rest, hi⟩ := posted
      rw [step_posts_key hi]
      exact keepsLatch_next rfl
    · rw [step_runs_slot hk fun e rest hi => posted ⟨e, rest, hi⟩]
      exact tickSlot_keepsLatch k s

/-- Settles O22: a step that is no accepted RESET or LOAD_SNAPSHOT keeps the latch (`step_keepsLatch`). -/
theorem faultStaysLatched : Obligations.FaultStaysLatched := by
  unfold Obligations.FaultStaysLatched
  intro s t hf e ht
  by_contra h
  exact step_keepsLatch h t e hf ht

end Sys2Proof.Machine
end

section
/-! SUPPORT. Timers, publish and the end of a tick (60_exceptions.md R222 to R227). -/

namespace Sys2Proof.Machine

open State

variable {s t u : State}

/-! ### The timers (R224, R225) -/

/-- A timer comes to 1 from 2 alone. -/
theorem sub_one_eq_one_iff (b : Byte) : b - 1 = 1 ↔ b.toNat = 2 := by bv_omega

/-- A timer counted down to zero, as a number. -/
theorem countDown_toNat (b : Byte) : (if b = 0 then 0 else b - 1).toNat = b.toNat - 1 := by
  split <;> bv_omega

/-- A timer step counts both timers down, and beeps where ST was 2. -/
theorem timerStep_counts (s : State) :
    s.timerStep = { s with
      dt := if s.dt = 0 then 0 else s.dt - 1
      st := if s.st = 0 then 0 else s.st - 1
      out := s.out ++ if s.st.toNat = 2 then [.beep] else [] } := by
  by_cases silent : s.st = 0
  · simp [timerStep, silent]
  · by_cases beeps : s.st.toNat = 2
    · simp only [timerStep, if_neg silent, sub_one_eq_one_iff, if_pos beeps, emit]
    · simp only [timerStep, if_neg silent, sub_one_eq_one_iff, if_neg beeps, List.append_nil]

theorem onlyChanges_timerStep : OnlyChanges [.dt, .st, .outputs] s s.timerStep := by
  rw [timerStep_eq]
  exact (onlyChanges_dt s.timerStep.dt).trans ((onlyChanges_st s.timerStep.st).trans (onlyChanges_out _))

/-- Settles O50, from the fields that a timer step writes (`timerStep_counts`). -/
theorem timerStepCountsDown : Obligations.TimerStepCountsDown := by
  unfold Obligations.TimerStepCountsDown
  intro s
  have frame := onlyChanges_timerStep (s := s)
  rw [timerStep_counts] at frame ⊢
  exact ⟨countDown_toNat s.dt, countDown_toNat s.st, rfl, frame⟩

/-! ### The publish of a tick (R226) -/

/-- The end of a tick after the timers: the frame is sent if DIRTY is set. -/
def publishIfDirty (s : State) : State := if s.dirty then s.publish else s

theorem tickEnd_of_timers (h : s.run = .running ∨ s.params.pausedTimers = true) :
    s.tickEnd = publishIfDirty s.timerStep := by
  rw [tickEnd, if_pos h]
  rfl

theorem tickEnd_of_noTimers (h : ¬(s.run = .running ∨ s.params.pausedTimers = true)) :
    s.tickEnd = publishIfDirty s := by
  rw [tickEnd, if_neg h]
  rfl

theorem publishIfDirty_out (s : State) :
    (publishIfDirty s).out = s.out ++ if s.dirty then [.frame s.fb] else [] := by
  rw [publishIfDirty]
  split
  · rfl
  · exact (List.append_nil _).symm

theorem publishIfDirty_dirty (s : State) : (publishIfDirty s).dirty = false := by
  rw [publishIfDirty]
  split
  · rfl
  · next h => exact Bool.eq_false_iff.mpr h

theorem onlyChanges_publish : OnlyChanges [.outputs, .dirty] s s.publish :=
  (onlyChanges_out _).trans (onlyChanges_dirty false)

theorem onlyChanges_publishIfDirty : OnlyChanges [.outputs, .dirty] s (publishIfDirty s) := by
  rw [publishIfDirty]
  split
  · exact onlyChanges_publish
  · exact onlyChanges_refl.mono (by simp)

theorem tickEnd_dirty (s : State) : s.tickEnd.dirty = false := publishIfDirty_dirty _

/-- The timers and events after a tick's end that steps the timers. -/
theorem tickEnd_timers (h : s.run = .running ∨ s.params.pausedTimers = true) :
    s.tickEnd.dt.toNat = s.dt.toNat - 1 ∧ s.tickEnd.st.toNat = s.st.toNat - 1 ∧
      s.tickEnd.out =
        s.out ++ (if s.st.toNat = 2 then [.beep] else []) ++ (if s.dirty then [.frame s.fb] else []) := by
  obtain ⟨hdt, hst, hout, rest⟩ := timerStepCountsDown s
  have dirty : s.timerStep.dirty = s.dirty := rest .dirty (by decide)
  have pixels : s.timerStep.fb = s.fb := rest .pixels (by decide)
  have published := onlyChanges_publishIfDirty (s := s.timerStep)
  rw [tickEnd_of_timers h]
  refine ⟨?_, ?_, by rw [publishIfDirty_out, hout, dirty, pixels]⟩
  · rw [published .dt (by decide), hdt]
  · rw [published .st (by decide), hst]

/-- A tick's end that leaves the timers alone (R227). -/
theorem tickEnd_noTimers (h : ¬(s.run = .running ∨ s.params.pausedTimers = true)) :
    s.tickEnd.dt = s.dt ∧ s.tickEnd.st = s.st ∧
      s.tickEnd.out = s.out ++ if s.dirty then [.frame s.fb] else [] := by
  rw [tickEnd_of_noTimers h]
  exact ⟨onlyChanges_publishIfDirty .dt (by decide), onlyChanges_publishIfDirty .st (by decide),
    publishIfDirty_out s⟩

/-! ### The last slot of a running tick (R222) -/

/-- A slot that leaves no fault leaves RUN and the count of slots. -/
theorem SlotDone.control_of_noFault (d : SlotDone s t) (h : t.fault = none) :
    t.run = s.run ∧ t.slotsLeft = s.slotsLeft := by
  rcases d.control with ⟨-, hr, hl⟩ | ⟨hf, -, -⟩
  · exact ⟨hr, hl⟩
  · exact absurd h hf

theorem slot_next_done (e : slot s = .next t) : SlotDone s t := by
  obtain ⟨u, e', d⟩ := slot_done s
  cases e.symm.trans e'
  exact d

/-- Settles O51: the machine is still Running after the slot, so the tick's end steps the timers
(`tickEnd_timers`). -/
theorem lastSlotEndsTick : Obligations.LastSlotEndsTick := by
  unfold Obligations.LastSlotEndsTick
  intro s u t hr due h0 e hf
  obtain ⟨run, left⟩ := (slot_next_done e).control_of_noFault hf
  have running : t.run = .running := (run.trans (due.onlyChanges .run (by decide))).trans hr
  obtain ⟨hdt, hst, hout⟩ := tickEnd_timers (.inl running)
  refine ⟨t.tickEnd, ?_, hdt, hst, hout, tickEnd_dirty t, onlyChanges_tickEnd⟩
  rw [step_slotDue_next due e, afterSlot_of_last hf (left.trans h0)]

/-! ### A tick while not Running (R221, R227) -/

theorem tick_paused (h : s.run = .paused) : tick s = .next s.tickEnd := by simp only [tick, h]

theorem tick_stopped (h : s.run = .stopped) : tick s = .next s := by simp only [tick, h]

/-- With nothing waiting, or a TICK, the step is that tick. -/
theorem step_tickDue (h0 : s.slotsLeft = 0) (h : s.inputs = [] ∨ ∃ rest, s.inputs = .tick :: rest) :
    step s = tick { s with inputs := s.inputs.tail } := by
  rcases h with hi | ⟨rest, hi⟩
  · rw [step_ticks h0 hi, hi, List.tail_nil, ← hi]
  · rw [step_serves h0 hi, hi]
    rfl

/-- Settles O52: the step is the end of a tick on the state with the TICK taken, with or without the timers. -/
theorem pausedTickRunsNoSlot : Obligations.PausedTickRunsNoSlot := by
  unfold Obligations.PausedTickRunsNoSlot
  intro s hr h0 due
  have answer := (step_tickDue h0 due).trans (tick_paused (s := { s with inputs := s.inputs.tail }) hr)
  have frame := (onlyChanges_inputs (s := s) s.inputs.tail).trans onlyChanges_tickEnd
  refine ⟨_, answer, onlyChanges_tickEnd .inputs (by decide), tickEnd_dirty _, frame.mono (by decide),
    fun timers => tickEnd_timers (.inr timers), fun noTimers => tickEnd_noTimers ?_⟩
  simp [hr, noTimers]

/-- Settles O23: a tick of a Stopped machine answers the state it finds. -/
theorem stoppedMachineSeesNoTick : Obligations.StoppedMachineSeesNoTick := by
  unfold Obligations.StoppedMachineSeesNoTick
  refine ⟨fun s hr h0 hi => (step_ticks h0 hi).trans (tick_stopped hr), fun s rest hr h0 hi => ?_⟩
  exact ⟨_, (step_serves h0 hi).trans (tick_stopped (s := { s with inputs := rest }) hr), rfl,
    onlyChanges_inputs rest⟩

end Sys2Proof.Machine
end

section
/-! SUPPORT. The slots of a running tick counted (60_exceptions.md R222, R223), and what a tick in progress leaves
waiting (R215, R231). -/

namespace Sys2Proof.Machine

open State

variable {s t u : State}

/-! ### What a tick leaves alone -/

/-- A slot of a tick takes no event, and keeps IPS and IMG. -/
theorem tickSlot_keeps {k : Nat} (e : tickSlot k s = .next t) :
    t.inputs = s.inputs ∧ t.ips = s.ips ∧ t.img = s.img := by
  obtain ⟨u, e', d⟩ := slot_done { s with slotsLeft := k }
  rw [tickSlot, e', Answer.andThen_next] at e
  cases e
  have frame := onlyChanges_afterSlot (s := u)
  exact ⟨(frame .inputs (by decide)).trans d.inputs, (frame .rate (by decide)).trans d.ips,
    (frame .image (by decide)).trans d.img⟩

/-- Settles O57: the step is a slot of the tick (`step_runs_slot`). -/
theorem requestsWaitForTickEnd : Obligations.RequestsWaitForTickEnd := by
  unfold Obligations.RequestsWaitForTickEnd
  intro s t hl hk e
  obtain ⟨k, hs⟩ := Nat.exists_eq_succ_of_ne_zero hl.ne'
  rw [step_runs_slot hs hk] at e
  exact tickSlot_keeps e

theorem tick_inputs (e : tick s = .next t) : t.inputs = s.inputs := by
  rw [tick] at e
  split at e
  case h_1 =>
    obtain ⟨inputs, -, -⟩ := tickSlot_keeps e
    exact inputs
  case h_2 =>
    cases e
    exact onlyChanges_tickEnd .inputs (by decide)
  case h_3 =>
    cases e
    rfl

/-- The machine makes no events of its own: where none waits, none waits after a step. -/
theorem step_inputs_nil (hi : s.inputs = []) (e : step s = .next t) : t.inputs = [] := by
  cases hk : s.slotsLeft with
  | zero =>
    rw [step_ticks hk hi] at e
    exact (tick_inputs e).trans hi
  | succ k =>
    rw [step_runs_slot hk (by simp [hi])] at e
    obtain ⟨inputs, -, -⟩ := tickSlot_keeps e
    exact inputs.trans hi

theorem run_inputs_nil {k : Nat} (hi : s.inputs = []) (e : Host.Core.run Sys2Proof.core k s = .next t) :
    t.inputs = [] := by
  induction k generalizing t with
  | zero =>
    cases e
    exact hi
  | succ k ih =>
    obtain ⟨b, hb, e⟩ := run_last_of_next e
    exact step_inputs_nil (ih hb) e

/-- Where no event waits a step clears no fault. -/
theorem step_fault_of_noInput (hi : s.inputs = []) (e : step s = .next t) (h : t.fault = none) : s.fault = none := by
  by_contra hf
  refine step_keepsLatch ?_ t e hf h
  rintro ⟨-, -, rest, hreset | ⟨blob, hload⟩⟩
  · cases hi.symm.trans hreset
  · cases hi.symm.trans hload

/-! ### The count of slots -/

theorem afterSlot_slotsLeft (h : s.fault = none) : s.afterSlot.slotsLeft = s.slotsLeft := by
  rw [afterSlot, if_neg (by simp [h])]
  split
  · exact onlyChanges_tickEnd .tickLeft (by decide)
  · rfl

/-- A due slot that leaves no fault leaves as many slots as were counted for it, RUN and IPS. -/
theorem step_slotDue_counts (due : SlotDue s u) (e : step s = .next t) (h : t.fault = none) :
    t.slotsLeft = u.slotsLeft ∧ t.run = s.run ∧ t.ips = s.ips := by
  obtain ⟨w, hw, d⟩ := slot_done u
  cases (step_slotDue_next due hw).symm.trans e
  rw [afterSlot_fault] at h
  obtain ⟨run, left⟩ := d.control_of_noFault h
  have frame := onlyChanges_afterSlot (s := w)
  exact ⟨(afterSlot_slotsLeft h).trans left,
    (frame .run (by decide)).trans (run.trans (due.onlyChanges .run (by decide))),
    (frame .rate (by decide)).trans (d.ips.trans (due.onlyChanges .rate (by decide)))⟩

section RunningTick

variable (hr : s.run = .running) (h0 : s.slotsLeft = 0) (hi : s.inputs = [])
include hr h0 hi

/-- After each step of a running tick that has latched no fault, one slot less is left. -/
theorem run_runningTick {k : Nat} (hk : k + 1 ≤ max 1 (s.ips / 60))
    (e : Host.Core.run Sys2Proof.core (k + 1) s = .next t) (hf : t.fault = none) :
    t.slotsLeft = max 1 (s.ips / 60) - (k + 1) ∧ t.run = .running ∧ t.ips = s.ips := by
  induction k generalizing t with
  | zero =>
    have first : step s = .next t := (run_one (M := Sys2Proof.core)).symm.trans e
    obtain ⟨left, run, ips⟩ := step_slotDue_counts (.inr (.inl ⟨h0, hr, hi, rfl⟩)) first hf
    exact ⟨left, run.trans hr, ips⟩
  | succ k ih =>
    obtain ⟨b, hb, e⟩ := run_last_of_next e
    have noInput : b.inputs = [] := run_inputs_nil hi hb
    obtain ⟨left, run, ips⟩ := ih (by omega) hb (step_fault_of_noInput noInput e hf)
    have due : SlotDue b { b with slotsLeft := max 1 (s.ips / 60) - (k + 1 + 1) } :=
      .inl ⟨_, by omega, by simp [noInput], rfl⟩
    obtain ⟨left', run', ips'⟩ := step_slotDue_counts due e hf
    exact ⟨left', run'.trans run, ips'.trans ips⟩

end RunningTick

/-- Settles O53, by induction on the steps (`run_runningTick`). -/
theorem runningTickRunsCptSlots : Obligations.RunningTickRunsCptSlots := by
  unfold Obligations.RunningTickRunsCptSlots
  intro s t k hr h0 hi _ hpos hk e hf
  obtain ⟨j, rfl⟩ := Nat.exists_eq_succ_of_ne_zero hpos.ne'
  exact run_runningTick hr h0 hi hk e hf

end Sys2Proof.Machine
end

section
/-! SUPPORT. Requests refused, and the single step (60_exceptions.md R214, R230, R232). -/

namespace Sys2Proof.Machine

open State

variable {s : State}

theorem refused_reply : Refused s (s.reply .usageError) := ⟨rfl, onlyChanges_out _⟩

/-- A request accepted only while Running or Paused is refused while Stopped (R230). -/
theorem request_active_refused {effect : State} (h : s.run = .stopped) :
    s.request s.active effect = s.reply .usageError := request_refused (by simp [active, h])

/-- START is refused unless Stopped without a fault (R230). -/
theorem serve_start_refused (h : s.run ≠ .stopped ∨ s.fault ≠ none) :
    serve .start s = .next (s.reply .usageError) := by
  rw [serve, request_refused]
  rcases h with h | h <;> simp [h, Option.isSome_iff_ne_none]

/-- Settles O55: each such request is served with USAGE_ERROR. -/
theorem refusedRequestsChangeNothing : Obligations.RefusedRequestsChangeNothing := by
  unfold Obligations.RefusedRequestsChangeNothing
  intro s r rest h0 hi h
  suffices refuses : serve r { s with inputs := rest } =
      .next (({ s with inputs := rest } : State).reply .usageError) from
    ⟨_, (step_serves h0 hi).trans refuses, rfl, refused_reply⟩
  rcases h with ⟨rfl, h⟩ | ⟨rfl, h⟩ | ⟨rfl, h⟩ | ⟨rfl, h⟩ | ⟨hr, rfl | rfl | ⟨b, rfl⟩ | ⟨p, rfl⟩⟩
  · exact serve_start_refused h
  · exact congrArg Host.Outcome.next (request_active_refused h)
  · exact congrArg Host.Outcome.next (request_active_refused h)
  · exact serve_step_refused h
  all_goals exact congrArg Host.Outcome.next (request_halted_refused hr)

/-- Settles O56: without a fault the slot is followed by the publish and the result (`afterStep_of_noFault`). -/
theorem singleStepPublishes : Obligations.SingleStepPublishes := by
  unfold Obligations.SingleStepPublishes
  intro rest s t h0 hi hr hs e hf
  obtain ⟨run, -⟩ := (slot_next_done e).control_of_noFault hf
  have sent : (t.out ++ [.frame t.fb]) ++ [.result .ok] = t.out ++ [.frame t.fb, .result .ok] := by simp
  refine ⟨_, step_singleStep h0 hi hr hs e, ?_⟩
  rw [afterStep_of_noFault hf]
  exact ⟨sent, rfl, run, (onlyChanges_publish.trans (onlyChanges_out _)).mono (by decide)⟩

end Sys2Proof.Machine
end

section
/-! SUPPORT. The machine at construction, LOAD_PROGRAM, and a load followed by a reset (70_reset_and_hazards.md R260
to R267). -/

namespace Sys2Proof.Machine

open State

variable {s : State} {image : Bytes} {rest : List Input}

/-! ### Construction (R260) -/

/-- A constructed machine lists no byte of memory. -/
theorem load_constructed (rate : Nat) (p : Params) (a : Nat) :
    (State.constructed rate p).load a = Mem.blank p.font a := Mem.read_nil

/-- Settles O9: every field is the one given, memory reads as unlisted (`load_constructed`), and FB is
`clearFrame`. -/
theorem constructionState : Obligations.ConstructionState := by
  unfold Obligations.ConstructionState
  rintro rate p s rfl
  refine ⟨rfl, rfl, rfl, rfl, rfl, ?regs, rfl, rfl, rfl, rfl, rfl, pixel_clearFrame, ?keys, rfl, rfl, rfl,
    ?font, ?zeros⟩
  case regs => exact fun r => by simp [reg, State.constructed]
  case keys => exact fun k => by simp [keyDown, State.constructed]
  case font => exact fun g j => (load_constructed rate p _).trans (Mem.blank_font g j)
  case zeros => exact fun a ha => (load_constructed rate p a).trans (Mem.blank_of_ge ha)

/-! ### A request accepted while not Running (R230) -/

variable {r : Input} {effect : State}

/-- A request that is accepted while Stopped or Paused, taken between ticks, has its effect. -/
theorem step_accepts (h0 : s.slotsLeft = 0) (hi : s.inputs = r :: rest) (hr : s.run ≠ .running)
    (e : serve r { s with inputs := rest } = .next (({ s with inputs := rest } : State).request s.halted effect)) :
    step s = .next effect := by
  rw [step_serves h0 hi, e, request_accepted (by simp [halted, hr])]

/-- The frame of an event taken and answered, and of nothing else done. -/
theorem onlyChanges_taken_answered (l : List Input) (o : List OutEvent) :
    OnlyChanges [.inputs, .outputs] s { s with inputs := l, out := o } :=
  (onlyChanges_inputs l).trans (onlyChanges_out o)

/-! ### LOAD_PROGRAM (R261, R262) -/

/-- An image that fits becomes IMG and is built into memory. -/
def withProgram (s : State) (image : Bytes) : State :=
  { s with img := image, mem := initMem s.params.font image }

theorem onlyChanges_img (image : Bytes) : OnlyChanges [.image] s { s with img := image } := by
  intro p hp
  cases p <;> simp_all [Part.Same, load, reg]

theorem onlyChanges_withProgram (image : Bytes) : OnlyChanges [.image, .memory] s (withProgram s image) :=
  (onlyChanges_img image).trans (onlyChanges_mem (initMem s.params.font image))

theorem loadProgram_of_fits (h : image.length ≤ 3584) : s.loadProgram image = (withProgram s image).reply .ok :=
  if_neg (Nat.not_lt.mpr h)

theorem loadProgram_of_tooLong (h : 3584 < image.length) : s.loadProgram image = s.reply .sizeError := if_pos h

theorem step_loadProgram (h0 : s.slotsLeft = 0) (hi : s.inputs = .loadProgram image :: rest)
    (hr : s.run ≠ .running) : step s = .next (({ s with inputs := rest } : State).loadProgram image) :=
  step_accepts h0 hi hr rfl

theorem step_loadProgram_fits (h0 : s.slotsLeft = 0) (hi : s.inputs = .loadProgram image :: rest)
    (hr : s.run ≠ .running) (fits : image.length ≤ 3584) :
    step s = .next ((withProgram { s with inputs := rest } image).reply .ok) := by
  rw [step_loadProgram h0 hi hr, loadProgram_of_fits fits]

/-- Settles O11, by whether the image fits: memory is then `InitMem` of it, and else only the answer is sent. -/
theorem loadProgramRequest : Obligations.LoadProgramRequest := by
  unfold Obligations.LoadProgramRequest
  intro s image rest h0 hi hr
  by_cases fits : image.length ≤ 3584
  · have frame := (onlyChanges_inputs (s := s) rest).trans
      ((onlyChanges_withProgram image).trans (onlyChanges_out (s.out ++ [.result .ok])))
    exact ⟨_, step_loadProgram_fits h0 hi hr fits, rfl,
      fun _ => ⟨rfl, rfl, read_initMem_font, fun _ => read_initMem_image, fun _ => read_initMem_zero,
        frame.mono (by decide)⟩,
      fun h => absurd fits (Nat.not_le.mpr h)⟩
  · refine ⟨_, step_loadProgram h0 hi hr, ?_⟩
    rw [loadProgram_of_tooLong (Nat.lt_of_not_le fits)]
    exact ⟨rfl, fun h => absurd h fits, fun _ => ⟨rfl, onlyChanges_taken_answered rest _⟩⟩

/-! ### Load, then reset (R267) -/

/-- Settles O12: RESET clears the rest (`resetRequestState`) and rebuilds memory from the image that LOAD_PROGRAM
latched. -/
theorem loadThenReset : Obligations.LoadThenReset := by
  unfold Obligations.LoadThenReset
  intro s image rest h0 hi hr fits
  have loaded := step_loadProgram_fits h0 hi hr fits
  obtain ⟨t, reset, regs, index, pc, stack, dt, st, pixels, -, -, -, -, -, program, -⟩ :=
    resetRequestState ((withProgram { s with inputs := .reset :: rest } image).reply .ok) rest h0 rfl hr fits
  have ran := (run_step (M := core) loaded).trans (run_one.trans reset)
  exact ⟨t, ran, program, regs, index, stack, dt, st, pixels, pc⟩

end Sys2Proof.Machine
end

section
/-! SUPPORT. Snapshots (70_reset_and_hazards.md R280 to R286): the record that SAVE builds, the state that a load of a
record gives, and the one after the other. -/

namespace Sys2Proof.Machine

open State

variable {s : State} {rest : List Input}

/-! ### SAVE (R282) -/

/-- The state after SAVE sent its blob and its result. -/
theorem save_eq (s : State) :
    s.save = { s with out := s.out ++ [.blob (s.codec.encode s.snapshot), .result .ok] } := by
  simp [save, emit]

theorem step_save (h0 : s.slotsLeft = 0) (hi : s.inputs = .save :: rest) (hr : s.run ≠ .running) :
    step s = .next { s with
      inputs := rest, out := s.out ++ [.blob (s.codec.encode s.snapshot), .result .ok] } :=
  (step_accepts h0 hi hr rfl).trans (congrArg Host.Outcome.next (save_eq { s with inputs := rest }))

theorem snapshot_mem (a : Fin 4096) : s.snapshot.mem[a] = s.load a := by simp [snapshot]

/-- The record of a state that meets the invariant is in range (R283). -/
theorem State.Inv.snapshot_inRange (h : Inv s) : s.snapshot.inRange s.params.stackCap = true := by
  obtain ⟨-, himg, hstack, -⟩ := h
  rw [Snapshot.inRange, Bool.and_eq_true, decide_eq_true_eq, Option.all_eq_true]
  exact ⟨himg, fun n hn => decide_eq_true (hstack n hn)⟩

/-- The codec's first law on the record of a state (R281). -/
theorem decode_encode_snapshot (h : Inv s) : s.codec.decode (s.codec.encode s.snapshot) = some s.snapshot :=
  s.codec.decode_encode _ h.snapshot_inRange

/-- Settles O58: the record is `State.snapshot`, field by field. -/
theorem saveChangesNothing : Obligations.SaveChangesNothing := by
  unfold Obligations.SaveChangesNothing
  intro s rest h0 hi hr
  exact ⟨_, s.snapshot, step_save h0 hi hr, rfl, snapshot_mem, rfl, rfl, rfl, rfl, rfl, rfl, rfl, rfl, rfl, rfl, rfl,
    rfl, onlyChanges_taken_answered rest _, decode_encode_snapshot⟩

/-! ### LOAD_SNAPSHOT (R284, R285) -/

variable {blob : Bytes} {p : Snapshot}

theorem loadSnapshot_of_decodes (h : s.codec.decode blob = some p) :
    s.loadSnapshot blob = (s.restore p).reply .ok := by
  rw [loadSnapshot, h]

theorem loadSnapshot_of_malformed (h : s.codec.decode blob = none) :
    s.loadSnapshot blob = s.reply .formatError := by
  rw [loadSnapshot, h]

theorem step_loadSnapshot (h0 : s.slotsLeft = 0) (hi : s.inputs = .loadSnapshot blob :: rest)
    (hr : s.run ≠ .running) : step s = .next (({ s with inputs := rest } : State).loadSnapshot blob) :=
  step_accepts h0 hi hr rfl

/-- After a load, memory is the record's. -/
theorem load_restore (a : Fin 4096) : (s.restore p).load a = p.mem[a] := by
  have h := Mem.read_ofBytes_inside (font := s.params.font) (a := 0) p.mem.toList a (by simp)
  simpa [load, restore] using h

/-- With a fault latched between ticks, START and STEP are refused (R230). -/
theorem step_refused_of_fault {r : Input} (h0 : s.slotsLeft = 0) (hf : s.fault ≠ none)
    (hr : r ∈ [Input.start, .step]) (later : List Input) :
    ∃ u, step { s with inputs := r :: later } = .next u ∧ Refused { s with inputs := later } u := by
  refine ⟨_, (step_serves (s := { s with inputs := r :: later }) h0 rfl).trans ?_, refused_reply⟩
  rcases List.mem_pair.mp hr with rfl | rfl
  · exact serve_start_refused (.inr hf)
  · exact serve_step_refused (.inr hf)

/-- Settles O59, by whether the blob decodes: each field is then the record's, and else only the answer is sent. -/
theorem loadSnapshotReplacesAllOrNothing : Obligations.LoadSnapshotReplacesAllOrNothing := by
  unfold Obligations.LoadSnapshotReplacesAllOrNothing
  intro s blob rest h0 hi hr
  refine ⟨_, step_loadSnapshot h0 hi hr, ?_⟩
  cases decoded : s.codec.decode blob with
  | none =>
    rw [loadSnapshot_of_malformed (s := { s with inputs := rest }) decoded]
    exact ⟨rfl, nofun, fun _ => ⟨rfl, onlyChanges_taken_answered rest _⟩⟩
  | some p =>
    rw [loadSnapshot_of_decodes (s := { s with inputs := rest }) decoded]
    refine ⟨rfl, ?_, nofun⟩
    rintro _ ⟨⟩
    refine ⟨load_restore, rfl, rfl, rfl, rfl, rfl, rfl, rfl, rfl, rfl, rfl, rfl, rfl, rfl, ?kept, ?refused⟩
    case kept => simp [Part.Same, restore]
    case refused =>
      intro hf r hr
      exact step_refused_of_fault (s := (({ s with inputs := rest } : State).restore p).reply .ok) h0 hf hr

/-! ### LOAD_SNAPSHOT of what SAVE answered (R286) -/

theorem restore_mem (p : Snapshot) : (s.restore p).mem = Mem.ofBytes s.params.font 0 p.mem.toList := rfl

/-- A record of the bytes of a canonical memory gives that memory back as data (`Mem.ext_of_wf`). -/
theorem restore_mem_eq (h : Memory.wf s.params.font s.mem) (same : ∀ a : Fin 4096, p.mem[a] = s.load a) :
    (s.restore p).mem = s.mem := by
  refine Mem.ext_of_wf (Mem.wf_ofBytes _ (by simp)) h fun a => ?_
  by_cases ha : a < 4096
  · exact (load_restore ⟨a, ha⟩).trans (same ⟨a, ha⟩)
  · rw [restore_mem, Mem.read_ofBytes_outside _ (.inr (by simpa using ha)), Mem.read_beyond h (Nat.le_of_not_lt ha)]

/-- Loading a state's own record sets DIRTY and changes nothing else. -/
theorem restore_snapshot (h : Inv s) : s.restore s.snapshot = { s with dirty := true } := by
  have mem := restore_mem_eq h.bounded.1 snapshot_mem
  rw [restore_mem] at mem
  rw [restore, mem]
  rfl

/-- LOAD_SNAPSHOT of the blob of the current state. -/
theorem loadSnapshot_own_blob (h : Inv s) :
    s.loadSnapshot (s.codec.encode s.snapshot) = ({ s with dirty := true } : State).reply .ok := by
  rw [loadSnapshot_of_decodes (decode_encode_snapshot h), restore_snapshot h]

theorem step_loads_own_blob (h : Inv s) (h0 : s.slotsLeft = 0) (hr : s.run ≠ .running) :
    step { s with inputs := .loadSnapshot (s.codec.encode s.snapshot) :: rest } =
      .next { s with inputs := rest, dirty := true, out := s.out ++ [.result .ok] } :=
  (step_loadSnapshot (s := { s with inputs := .loadSnapshot _ :: rest }) h0 rfl hr).trans
    (congrArg Host.Outcome.next (loadSnapshot_own_blob (s := { s with inputs := rest }) h))

/-- Settles O60: SAVE leaves the record of the state as it was (`step_save`), so its blob is the own blob of the state
that loads it (`step_loads_own_blob`). -/
theorem loadOfSaveRestoresState : Obligations.LoadOfSaveRestoresState := by
  unfold Obligations.LoadOfSaveRestoresState
  intro s rest h h0 hr
  have saved := step_save (s := { s with inputs := [.save] }) h0 rfl hr
  exact ⟨s.codec.encode s.snapshot, _, _, saved, rfl,
    step_loads_own_blob (s := { s with inputs := [], out := s.out ++ [.blob _, .result .ok] }) h h0 hr, rfl⟩

end Sys2Proof.Machine
end
